-- ==== Sys2Proof/Config.lean ====
section
/-! DEFINITION. What is fixed when the block and its memory device are built (00_scope.md section 4), and the one
free value of the model. -/

namespace Sys2Proof

/-- The implementation parameters of 00_scope.md section 4 that a machine keeps for its lifetime. They are plain
data in the state (DESIGN CHOICE, log entry 4), so every statement speaks of every legal value of them; no step changes
them. -/
structure Params where
  /-- `CAP`, the capacity of the memory device in bytes: `1 <= CAP <= 65536` (R57). -/
  cap : Nat
  /-- `ZP_POINTER_WRAP`: the high byte of a zero-page pointer comes from `(zp + 1) mod 256` (R181). -/
  zpPointerWrap : Bool
  deriving DecidableEq, Repr

/-- The values the spec names: `CAP` is 65536 by default (R57), `ZP_POINTER_WRAP` is true (R181, D17). -/
def Params.default : Params := ⟨65536, true⟩

/-- FREE VALUE (DESIGN CHOICE, log entry 1). After a failed resolution `PC` is "unknown" among the values its increments had
reached (R208). The n-th such draw is an uninterpreted number, which Machine/Ops.lean brings into that range. -/
opaque Config.freePcAdvance : Nat → Nat

end Sys2Proof
end

