-- ==== Sys2Proof/Word.lean ====
section
/-! DEFINITION. The two value types of the block: Byte and Word (rule R7). Everything computed from them stands in
Machine/Address.lean. -/

namespace Sys2Proof

/-- An 8-bit unsigned value in `0..255` (R7). -/
abbrev Byte := BitVec 8

/-- A 16-bit unsigned value in `0..65535` (R7); an Address is one (R5), and so is a pc (R21). -/
abbrev Word := BitVec 16

end Sys2Proof
end

