-- ==== Sys2Proof/Syntax.lean ====
section
/-! DEFINITION. The operations of the block and of its bus device: one constructor per row of
spec/opcode_table.json (45 rows), in the table's order. -/

namespace Sys2Proof

/-- The eight named flags of `P` (R27). -/
inductive Flag where
  | C | Z | I | D | B | U | V | N
  deriving DecidableEq, Repr

/-- The seven registers of the block (R20), as a register select names them (R96). -/
inductive RegSel where
  | PC | SP | A | X | Y | P | IMP
  deriving DecidableEq, Repr

/-- The 13 valid addressing modes (R94). -/
inductive Mode where
  | acc | impl | imm | abs | zp | absX | absY | zpX | zpY | ind | indX | indY | rel
  deriving DecidableEq, Repr

/-- Every command of the command port (R97) and every operation of the bus device (R104). `data` and `addr` are 16
bits (R98); an index of the diagnostic access is a number (R59, R60; DEDUCED, log entry 14). -/
inductive Instr where
  -- RESOLVE, codes 0 to 15 (R94, R150)
  | resolveAcc
  | resolveImpl
  | resolveImm
  | resolveAbs
  | resolveZp
  | resolveAbsX
  | resolveAbsY
  | resolveZpX
  | resolveZpY
  | resolveInd
  | resolveIndX
  | resolveIndY
  | resolveRel
  | resolveIllegal
  | resolveUnrecognized14
  | resolveUnrecognized15
  -- RESET (R221)
  | reset
  -- register reads (R120 to R126)
  | getPc
  | getSp
  | getA
  | getX
  | getY
  | getP
  | getImp
  -- register writes (R127 to R133)
  | setPc (data : Word)
  | setSp (data : Word)
  | setA (data : Word)
  | setX (data : Word)
  | setY (data : Word)
  | setP (data : Word)
  | setImplicit (data : Word)
  -- status-flag operations (R134 to R136)
  | getFlag (f : Flag)
  | hasFlag (f : Flag)
  | setFlag (v : Bool) (f : Flag)
  -- bus pass-through writes (R190 to R192)
  | writeByte (addr data : Word)
  | writeWord (addr data : Word)
  | writeBytes (addr : Word) (seq : List Byte)
  -- operations of the bus device, issued by another master (R51 to R55, R70)
  | busReadByte (addr : Word)
  | busReadWord (addr : Word)
  | busWriteByte (addr : Word) (value : Byte)
  | busWriteWord (addr value : Word)
  | busWriteBytes (addr : Word) (seq : List Byte)
  -- operations of the memory device outside the bus contract (R58 to R60)
  | memClear (value : Byte)
  | memIndexedRead (i : Nat)
  | memIndexedWrite (i : Nat) (value : Byte)
  deriving DecidableEq, Repr

end Sys2Proof
end

