-- ==== Sys2Proof/WellFormed.lean ====
section
/-! DEFINITION. Which instructions are spelled by a command the block accepts: the operand rule of R98. -/

namespace Sys2Proof

/-- `data[15:8] = 0`, which R98 requires of every 8-bit write. -/
def dataIsByte (d : Word) : Bool := decide (d.toNat < 256)

/-- R98, R99: the 8-bit `SET_*` commands and `WRITE_BYTE` require `data[15:8] = 0`; nothing else is restricted. -/
def wellFormed : Instr → Bool
  | .setSp d | .setA d | .setX d | .setY d | .setP d | .setImplicit d => dataIsByte d
  | .writeByte _ d => dataIsByte d
  | .resolveAcc | .resolveImpl | .resolveImm | .resolveAbs | .resolveZp | .resolveAbsX | .resolveAbsY
  | .resolveZpX | .resolveZpY | .resolveInd | .resolveIndX | .resolveIndY | .resolveRel
  | .resolveIllegal | .resolveUnrecognized14 | .resolveUnrecognized15
  | .reset | .getPc | .getSp | .getA | .getX | .getY | .getP | .getImp
  | .setPc _ | .getFlag _ | .hasFlag _ | .setFlag _ _
  | .writeWord _ _ | .writeBytes _ _
  | .busReadByte _ | .busReadWord _ | .busWriteByte _ _ | .busWriteWord _ _ | .busWriteBytes _ _
  | .memClear _ | .memIndexedRead _ | .memIndexedWrite _ _ => true

/-- `i` is a well-formed instruction. -/
abbrev WellFormed (i : Instr) : Prop := wellFormed i = true

end Sys2Proof
end

