-- ==== Sys2Proof/Decode.lean ====
section
/-! DEFINITION. The encoding of 30_encoding.md: the transactions on the two ports, the decoder (total, rejecting by
name), the encoder written from the same tables, and the host's `decodeTableWord`. -/

namespace Sys2Proof

/-- The operands one command carries beside its command word (R97, R98). A command carries no operand its class does
not take, so the operands come in one of four forms. -/
inductive CommandOperands where
  | none
  | data (d : Word)
  | addrData (a d : Word)
  | addrSeq (a : Word) (s : List Byte)
  deriving DecidableEq, Repr

/-- The operands of one operation of the bus device (R51 to R60). -/
inductive BusOperands where
  | addr (a : Word)
  | addrByte (a : Word) (v : Byte)
  | addrWord (a v : Word)
  | addrSeq (a : Word) (s : List Byte)
  | value (v : Byte)
  | index (i : Nat)
  | indexByte (i : Nat) (v : Byte)
  deriving DecidableEq, Repr

/-- One transaction: a command of the caller on the command port (R2, interface 1), or an operation another master
issues to the bus device (R2, interface 3; R70), with that master's number and the 3-bit `bop` code (R104). -/
inductive Request where
  | command (word : Byte) (ops : CommandOperands)
  | bus (master : Nat) (bop : BitVec 3) (ops : BusOperands)
  deriving DecidableEq, Repr

/-- Why the decoder gives no instruction. -/
inductive DecodeError where
  /-- A command word no row of R97 matches (R99). -/
  | reservedWord (w : Byte)
  /-- An 8-bit `SET_*` or `WRITE_BYTE` with `data[15:8] != 0` (R98, R99). -/
  | dataTooWide (w : Byte) (d : Word)
  /-- Operands of another form than the class takes (R98; DESIGN CHOICE, log entry 8). -/
  | operandsDoNotFit
  deriving DecidableEq, Repr

/-! ### Field codes -/

/-- The flag index, which is the flag's bit in `P` (R27, R95). -/
def flagIndex : Flag → BitVec 3
  | .C => 0
  | .Z => 1
  | .I => 2
  | .D => 3
  | .B => 4
  | .U => 5
  | .V => 6
  | .N => 7

/-- The flag an index names (R95). -/
def flagOfIndex (f : BitVec 3) : Flag :=
  match f with
  | 0#3 => .C
  | 1#3 => .Z
  | 2#3 => .I
  | 3#3 => .D
  | 4#3 => .B
  | 5#3 => .U
  | 6#3 => .V
  | 7#3 => .N

/-- The register select code (R96). -/
def regCode : RegSel → BitVec 3
  | .PC => 0
  | .SP => 1
  | .A => 2
  | .X => 3
  | .Y => 4
  | .P => 5
  | .IMP => 6

/-- The addressing-mode code of a valid mode (R94). -/
def modeCode : Mode → BitVec 4
  | .acc => 0
  | .impl => 1
  | .imm => 2
  | .abs => 3
  | .zp => 4
  | .absX => 5
  | .absY => 6
  | .zpX => 7
  | .zpY => 8
  | .ind => 9
  | .indX => 10
  | .indY => 11
  | .rel => 12

/-! ### The decoder -/

/-- `cmd[7:4]`, the class of a command word (R97). -/
def classOf (w : Byte) : BitVec 4 := w.extractLsb' 4 4

/-- `cmd[3:0]`, the low field of a command word (R97). -/
def fieldOf (w : Byte) : BitVec 4 := w.extractLsb' 0 4

/-- `RESOLVE(m)`: every one of the 16 codes is a command (R94, R150). -/
def resolveOfCode (m : BitVec 4) : Instr :=
  match m with
  | 0x0#4 => .resolveAcc
  | 0x1#4 => .resolveImpl
  | 0x2#4 => .resolveImm
  | 0x3#4 => .resolveAbs
  | 0x4#4 => .resolveZp
  | 0x5#4 => .resolveAbsX
  | 0x6#4 => .resolveAbsY
  | 0x7#4 => .resolveZpX
  | 0x8#4 => .resolveZpY
  | 0x9#4 => .resolveInd
  | 0xA#4 => .resolveIndX
  | 0xB#4 => .resolveIndY
  | 0xC#4 => .resolveRel
  | 0xD#4 => .resolveIllegal
  | 0xE#4 => .resolveUnrecognized14
  | _ => .resolveUnrecognized15 -- 0xF

/-- What a matched command word still needs: the operands its class takes (R97, R98). -/
inductive WordForm where
  | plain (i : Instr)
  | data16 (k : Word → Instr)
  | data8 (k : Word → Instr)
  | addrData16 (k : Word → Word → Instr)
  | addrData8 (k : Word → Word → Instr)
  | addrSeq (k : Word → List Byte → Instr)

/-- The register reads, `r` in 0..6 (R97 row GET). -/
def getForm (f : BitVec 4) : Option WordForm :=
  match f with
  | 0x0#4 => some (.plain .getPc)
  | 0x1#4 => some (.plain .getSp)
  | 0x2#4 => some (.plain .getA)
  | 0x3#4 => some (.plain .getX)
  | 0x4#4 => some (.plain .getY)
  | 0x5#4 => some (.plain .getP)
  | 0x6#4 => some (.plain .getImp)
  | _ => none

/-- The register writes, `r` in 0..6 (R97 row SET, R98). -/
def setForm (f : BitVec 4) : Option WordForm :=
  match f with
  | 0x0#4 => some (.data16 .setPc)
  | 0x1#4 => some (.data8 .setSp)
  | 0x2#4 => some (.data8 .setA)
  | 0x3#4 => some (.data8 .setX)
  | 0x4#4 => some (.data8 .setY)
  | 0x5#4 => some (.data8 .setP)
  | 0x6#4 => some (.data8 .setImplicit)
  | _ => none

/-- The pass-through writes (R97 rows WRITE_*). -/
def writeForm (f : BitVec 4) : Option WordForm :=
  match f with
  | 0x0#4 => some (.addrData8 .writeByte)
  | 0x1#4 => some (.addrData16 .writeWord)
  | 0x2#4 => some (.addrSeq .writeBytes)
  | _ => none

/-- The table of R97: what a command word is, or nothing where it is reserved (R99). -/
def formOfWord (w : Byte) : Option WordForm :=
  match classOf w with
  | 0x0#4 => some (.plain (resolveOfCode (fieldOf w)))
  | 0x1#4 => if fieldOf w = 0 then some (.plain .reset) else none
  | 0x2#4 => getForm (fieldOf w)
  | 0x3#4 => setForm (fieldOf w)
  | 0x4#4 => if w.getLsbD 3 then none else some (.plain (.getFlag (flagOfIndex (w.extractLsb' 0 3))))
  | 0x5#4 => if w.getLsbD 3 then none else some (.plain (.hasFlag (flagOfIndex (w.extractLsb' 0 3))))
  | 0x6#4 => some (.plain (.setFlag (w.getLsbD 3) (flagOfIndex (w.extractLsb' 0 3))))
  | 0x7#4 => writeForm (fieldOf w)
  | _ => none

/-- Give a matched command word its operands (R98), refusing a wide value for an 8-bit write (R99). -/
def attachOperands (w : Byte) : WordForm → CommandOperands → Except DecodeError Instr
  | .plain i, .none => .ok i
  | .data16 k, .data d => .ok (k d)
  | .data8 k, .data d => if dataIsByte d then .ok (k d) else .error (.dataTooWide w d)
  | .addrData16 k, .addrData a d => .ok (k a d)
  | .addrData8 k, .addrData a d => if dataIsByte d then .ok (k a d) else .error (.dataTooWide w d)
  | .addrSeq k, .addrSeq a s => .ok (k a s)
  | _, _ => .error .operandsDoNotFit

/-- The command-port decoder (R97 to R99). -/
def decodeCommand (w : Byte) (ops : CommandOperands) : Except DecodeError Instr :=
  match formOfWord w with
  | none => .error (.reservedWord w)
  | some form => attachOperands w form ops

/-- The decoder of the bus device's operations (R104). Every 3-bit code is an operation. -/
def decodeBus (bop : BitVec 3) (ops : BusOperands) : Except DecodeError Instr :=
  match bop, ops with
  | 0#3, .addr a => .ok (.busReadByte a)
  | 1#3, .addr a => .ok (.busReadWord a)
  | 2#3, .addrByte a v => .ok (.busWriteByte a v)
  | 3#3, .addrWord a v => .ok (.busWriteWord a v)
  | 4#3, .addrSeq a s => .ok (.busWriteBytes a s)
  | 5#3, .value v => .ok (.memClear v)
  | 6#3, .index i => .ok (.memIndexedRead i)
  | 7#3, .indexByte i v => .ok (.memIndexedWrite i v)
  | _, _ => .error .operandsDoNotFit

/-- The instruction a transaction spells. -/
def decode : Request → Except DecodeError Instr
  | .command w ops => decodeCommand w ops
  | .bus _ bop ops => decodeBus bop ops

/-! ### The encoder -/

/-- The transaction that spells an instruction (R97, R98, R104); `m` numbers the master that issues an operation of
the bus device, which no code carries. -/
def encodeAs (m : Nat) : Instr → Request
  | .resolveAcc => .command 0b00000000#8 .none
  | .resolveImpl => .command 0b00000001#8 .none
  | .resolveImm => .command 0b00000010#8 .none
  | .resolveAbs => .command 0b00000011#8 .none
  | .resolveZp => .command 0b00000100#8 .none
  | .resolveAbsX => .command 0b00000101#8 .none
  | .resolveAbsY => .command 0b00000110#8 .none
  | .resolveZpX => .command 0b00000111#8 .none
  | .resolveZpY => .command 0b00001000#8 .none
  | .resolveInd => .command 0b00001001#8 .none
  | .resolveIndX => .command 0b00001010#8 .none
  | .resolveIndY => .command 0b00001011#8 .none
  | .resolveRel => .command 0b00001100#8 .none
  | .resolveIllegal => .command 0b00001101#8 .none
  | .resolveUnrecognized14 => .command 0b00001110#8 .none
  | .resolveUnrecognized15 => .command 0b00001111#8 .none
  | .reset => .command 0b00010000#8 .none
  | .getPc => .command 0b00100000#8 .none
  | .getSp => .command 0b00100001#8 .none
  | .getA => .command 0b00100010#8 .none
  | .getX => .command 0b00100011#8 .none
  | .getY => .command 0b00100100#8 .none
  | .getP => .command 0b00100101#8 .none
  | .getImp => .command 0b00100110#8 .none
  | .setPc d => .command 0b00110000#8 (.data d)
  | .setSp d => .command 0b00110001#8 (.data d)
  | .setA d => .command 0b00110010#8 (.data d)
  | .setX d => .command 0b00110011#8 (.data d)
  | .setY d => .command 0b00110100#8 (.data d)
  | .setP d => .command 0b00110101#8 (.data d)
  | .setImplicit d => .command 0b00110110#8 (.data d)
  | .getFlag f => .command (0b01000#5 ++ flagIndex f) .none
  | .hasFlag f => .command (0b01010#5 ++ flagIndex f) .none
  | .setFlag v f => .command (0b0110#4 ++ (BitVec.ofBool v ++ flagIndex f)) .none
  | .writeByte a d => .command 0b01110000#8 (.addrData a d)
  | .writeWord a d => .command 0b01110001#8 (.addrData a d)
  | .writeBytes a s => .command 0b01110010#8 (.addrSeq a s)
  | .busReadByte a => .bus m 0b000#3 (.addr a)
  | .busReadWord a => .bus m 0b001#3 (.addr a)
  | .busWriteByte a v => .bus m 0b010#3 (.addrByte a v)
  | .busWriteWord a v => .bus m 0b011#3 (.addrWord a v)
  | .busWriteBytes a s => .bus m 0b100#3 (.addrSeq a s)
  | .memClear v => .bus m 0b101#3 (.value v)
  | .memIndexedRead i => .bus m 0b110#3 (.index i)
  | .memIndexedWrite i v => .bus m 0b111#3 (.indexByte i v)

/-- The transaction of an instruction, issued by master 0 where it is an operation of the bus device. -/
def encode (i : Instr) : Request := encodeAs 0 i

/-! ### The opcode table and the host's view of it -/

/-- Which port a row of the opcode table belongs to (its `format`). -/
inductive Port where
  | command | bus
  deriving DecidableEq, Repr

/-- The port and the code bits of a transaction, a `bop` code in the low three bits. -/
def codeOf : Request → Port × Byte
  | .command w _ => (.command, w)
  | .bus _ bop _ => (.bus, bop.setWidth 8)

/-- A row of spec/opcode_table.json: its `format`, `match` and `mask`. -/
structure OpcodeRow where
  port : Port
  pattern : Byte
  mask : Byte
  deriving DecidableEq, Repr

/-- The row of each instruction, copied from spec/opcode_table.json (R97, R104). -/
def opcodeRow : Instr → OpcodeRow
  | .resolveAcc => ⟨.command, 0x00, 0xff⟩
  | .resolveImpl => ⟨.command, 0x01, 0xff⟩
  | .resolveImm => ⟨.command, 0x02, 0xff⟩
  | .resolveAbs => ⟨.command, 0x03, 0xff⟩
  | .resolveZp => ⟨.command, 0x04, 0xff⟩
  | .resolveAbsX => ⟨.command, 0x05, 0xff⟩
  | .resolveAbsY => ⟨.command, 0x06, 0xff⟩
  | .resolveZpX => ⟨.command, 0x07, 0xff⟩
  | .resolveZpY => ⟨.command, 0x08, 0xff⟩
  | .resolveInd => ⟨.command, 0x09, 0xff⟩
  | .resolveIndX => ⟨.command, 0x0a, 0xff⟩
  | .resolveIndY => ⟨.command, 0x0b, 0xff⟩
  | .resolveRel => ⟨.command, 0x0c, 0xff⟩
  | .resolveIllegal => ⟨.command, 0x0d, 0xff⟩
  | .resolveUnrecognized14 => ⟨.command, 0x0e, 0xff⟩
  | .resolveUnrecognized15 => ⟨.command, 0x0f, 0xff⟩
  | .reset => ⟨.command, 0x10, 0xff⟩
  | .getPc => ⟨.command, 0x20, 0xff⟩
  | .getSp => ⟨.command, 0x21, 0xff⟩
  | .getA => ⟨.command, 0x22, 0xff⟩
  | .getX => ⟨.command, 0x23, 0xff⟩
  | .getY => ⟨.command, 0x24, 0xff⟩
  | .getP => ⟨.command, 0x25, 0xff⟩
  | .getImp => ⟨.command, 0x26, 0xff⟩
  | .setPc _ => ⟨.command, 0x30, 0xff⟩
  | .setSp _ => ⟨.command, 0x31, 0xff⟩
  | .setA _ => ⟨.command, 0x32, 0xff⟩
  | .setX _ => ⟨.command, 0x33, 0xff⟩
  | .setY _ => ⟨.command, 0x34, 0xff⟩
  | .setP _ => ⟨.command, 0x35, 0xff⟩
  | .setImplicit _ => ⟨.command, 0x36, 0xff⟩
  | .getFlag _ => ⟨.command, 0x40, 0xf8⟩
  | .hasFlag _ => ⟨.command, 0x50, 0xf8⟩
  | .setFlag _ _ => ⟨.command, 0x60, 0xf0⟩
  | .writeByte _ _ => ⟨.command, 0x70, 0xff⟩
  | .writeWord _ _ => ⟨.command, 0x71, 0xff⟩
  | .writeBytes _ _ => ⟨.command, 0x72, 0xff⟩
  | .busReadByte _ => ⟨.bus, 0x0, 0x7⟩
  | .busReadWord _ => ⟨.bus, 0x1, 0x7⟩
  | .busWriteByte _ _ => ⟨.bus, 0x2, 0x7⟩
  | .busWriteWord _ _ => ⟨.bus, 0x3, 0x7⟩
  | .busWriteBytes _ _ => ⟨.bus, 0x4, 0x7⟩
  | .memClear _ => ⟨.bus, 0x5, 0x7⟩
  | .memIndexedRead _ => ⟨.bus, 0x6, 0x7⟩
  | .memIndexedWrite _ _ => ⟨.bus, 0x7, 0x7⟩

/-- Operands of zeros, of the form a command word takes (an empty sequence for WRITE_BYTES). -/
def zeroOperands (w : Byte) : CommandOperands :=
  match formOfWord w with
  | some (.data16 _) | some (.data8 _) => .data 0
  | some (.addrData16 _) | some (.addrData8 _) => .addrData 0 0
  | some (.addrSeq _) => .addrSeq 0 []
  | some (.plain _) | none => .none

/-- Operands of zeros, of the form a bus-device operation takes. -/
def zeroBusOperands (bop : BitVec 3) : BusOperands :=
  match bop with
  | 0#3 | 1#3 => .addr 0
  | 2#3 => .addrByte 0 0
  | 3#3 => .addrWord 0 0
  | 4#3 => .addrSeq 0 []
  | 5#3 => .value 0
  | 6#3 => .index 0
  | 7#3 => .indexByte 0 0

/-- The transaction of a table row's bits `w`, operands zero. A row of fewer than 8 bits is a `bop` code (R104), a row
of 8 bits a command word (R97); the table gives the two kinds overlapping numbers, so the width tells them apart
(DESIGN CHOICE, log entry 9). -/
def tableRequest (master nbits w : Nat) : Request :=
  if nbits < 8 then
    .bus master (BitVec.ofNat 3 w) (zeroBusOperands (BitVec.ofNat 3 w))
  else
    .command (BitVec.ofNat 8 w) (zeroOperands (BitVec.ofNat 8 w))

/-- The instruction this decoder reads from the bits of an opcode-table row (the host's question). -/
def decodeTableWord (nbits w : Nat) : Option Instr :=
  match decode (tableRequest 0 nbits w) with
  | .ok i => some i
  | .error _ => none

end Sys2Proof
end

