-- ==== Sys2Proof/Machine/State.lean ====
section
/-! DEFINITION. The state of the machine: the block (R20), the memory device behind its bus (R56), what the two ports
carry in and out (R2, R100, R74), the refusal mark (R210), and the model's own draw counter. All of it is plain data. -/

namespace Sys2Proof.Machine

/-- A register with its valid bit (R36). The value of an invalid register can be read by no command (R37). -/
structure Reg (w : Nat) where
  value : BitVec w
  valid : Bool
  deriving DecidableEq, Repr

/-- The direction of a bus operation, as `BusRange` records it (R101). -/
inductive Dir where
  | read | write
  deriving DecidableEq, Repr

/-- The errors of the block with what each records (R101, R200). -/
inductive ErrorRecord where
  /-- The start address, the width in bytes and the direction of the bus operation that failed (R201). -/
  | busRange (addr width : Nat) (dir : Dir)
  /-- The mode code 13, 14 or 15 (R202). -/
  | illegalMode (m : BitVec 4)
  /-- The register read while invalid (R203). -/
  | unwritten (r : RegSel)
  deriving DecidableEq, Repr

/-- Who drives the bus device: the CPU block, or another master such as a debugger (R70). -/
inductive Master where
  | cpu
  | other (id : Nat)
  deriving DecidableEq, Repr

/-- The five operations of the bus capability (R50). -/
inductive BusOp where
  | readByte | readWord | writeByte | writeWord | writeBytes
  deriving DecidableEq, Repr

/-- One issued bus operation in the event history (R74). `value` is the bytes moved, in ascending address order, and
is absent where the operation raised `BusRange` and moved none (DESIGN CHOICE, log entry 11). -/
structure Event where
  master : Master
  op : BusOp
  addr : Nat
  width : Nat
  value : Option (List Byte)
  deriving DecidableEq, Repr

/-- The value an accessor returns (R100): a Word for GET_PC, a Byte for the other reads and GET_FLAG, a Boolean for
HAS_FLAG. -/
inductive Value where
  | word (v : Word)
  | byte (v : Byte)
  | bool (v : Bool)
  deriving DecidableEq, Repr

/-- The result of an accepted command (R100). `implicit` carries no address. -/
inductive Result where
  | addr (a : Word) (cycles : Nat)
  | implicit (cycles : Nat)
  | value (v : Value)
  | done
  | error (e : ErrorRecord)
  deriving DecidableEq, Repr

/-- What the bus device answers another master (R51 to R60). -/
inductive BusReply where
  | byte (v : Byte)
  | word (v : Word)
  | done
  | error (e : ErrorRecord)
  deriving DecidableEq, Repr

/-- The contents of the memory device: the bytes that differ from what an unlisted address reads as, by strictly rising
address (Machine/Ops.lean, `Memory.wf`). -/
abbrev Memory := List Host.Cell

/-- The whole machine. -/
structure State where
  /-- The program counter: the address of the next byte of the instruction stream (R21). -/
  pc : Reg 16
  /-- The stack pointer, the low byte of the stack address (R26). -/
  sp : Reg 8
  /-- The accumulator (R33). -/
  a : Reg 8
  /-- Index register X (R33). -/
  x : Reg 8
  /-- Index register Y (R33). -/
  y : Reg 8
  /-- The status flags, bit `f` the flag of index `f` (R27). -/
  p : Reg 8
  /-- The implicit-operand latch (R32). -/
  imp : Reg 8
  /-- `FAULT`: none, or the first error the block raised (R35). -/
  fault : Option ErrorRecord
  /-- The refusal mark of the run (R210). -/
  refusalMark : Bool
  /-- `CAP` and `ZP_POINTER_WRAP`, fixed at construction (R57, R181). -/
  params : Params
  /-- The byte store of the memory device (R56). -/
  mem : Memory
  /-- The number of the other master whose operation the device performs, or last performed (R70, R74; DESIGN CHOICE,
  log entry 12). -/
  requester : Nat
  /-- The transactions still to come on the two ports, in the one total order of R68 and R70; the head is next
  (DESIGN CHOICE, log entry 10). -/
  inputs : List Request
  /-- The results returned on the command port, oldest first (R100). -/
  results : List Result
  /-- The answers of the bus device to other masters, oldest first (R51 to R60). -/
  replies : List BusReply
  /-- The event history of the bus, oldest first (R74). -/
  events : List Event
  /-- The model's own: how many times the free value has been drawn (DESIGN CHOICE, log entries 1 and 15). -/
  draws : Nat
  deriving DecidableEq, Repr

/-- Why the machine stops. -/
inductive Fault where
  /-- Raised by every command that arrives while `FAULT` holds the error `e`: the block "accepts no further command: a
  model gives it no step" (R209; DEDUCED, log entry 5). Safe: the spec says there is no such step. -/
  | blockFaulted (e : ErrorRecord)
  deriving DecidableEq, Repr

/-- Why an instruction has no meaning. -/
inductive Refusal where
  /-- An instruction the model does not model. No arm answers so: every row of the table has its meaning. Safe. -/
  | notModelled (mnemonic : String)
  deriving DecidableEq, Repr

/-- A register that holds `v` (R36). -/
def Reg.of (w : Nat) (v : BitVec w) : Reg w := ⟨v, true⟩

/-- A register nothing has written since construction: its valid bit is clear (R36). Its value is zero by DESIGN CHOICE
(log entry 2); no command can read it (R37). -/
def Reg.unwritten (w : Nat) : Reg w := ⟨0, false⟩

/-- The machine right after construction and one RESET (R220, R221, 10_state.md section 9), with the default
parameters (log entries 4, 13), memory with nothing listed (log entry 3) and nothing yet on any port (log entry 6). -/
def State.reset : State where
  pc := .of 16 0xFFFC
  sp := .of 8 0x00
  a := .unwritten 8
  x := .unwritten 8
  y := .unwritten 8
  p := .of 8 0x00
  imp := .unwritten 8
  fault := none
  refusalMark := false
  params := .default
  mem := []
  requester := 0
  inputs := []
  results := []
  replies := []
  events := []
  draws := 0

/-- The three outcomes of a step of this machine. -/
abbrev Out := Host.Outcome State Fault Refusal

end Sys2Proof.Machine
end

