-- ==== Sys2Proof/Machine/Flags.lean ====
section
/-! DEFINITION. The status byte and its named bits (R27 to R29, R95, R134 to R136). -/

namespace Sys2Proof.Machine

/-- The bitmask of a flag, `1 << f` (R95). -/
def flagMask (f : Flag) : Byte := 1#8 <<< (flagIndex f).toNat

/-- `P.f`, the bit of the flag (R28). -/
def flagSet (p : Byte) (f : Flag) : Bool := p.getLsbD (flagIndex f).toNat

/-- What GET_FLAG returns: the byte 1 if the masked bit is set, else 0, never the mask value (R134). -/
def flagByte (p : Byte) (f : Flag) : Byte := if flagSet p f then 1 else 0

/-- The status byte after SET_FLAG: `P OR mask` or `P AND (NOT mask)` (R136). -/
def withFlag (p : Byte) (f : Flag) (v : Bool) : Byte :=
  if v then p ||| flagMask f else p &&& ~~~ flagMask f

end Sys2Proof.Machine
end

