-- ==== Sys2Proof/Machine/Address.lean ====
section
/-! DEFINITION. The two views of an Address (R5), its display (R6), byte order within a Word (R61) and the operand
assembly of R92. -/

namespace Sys2Proof.Machine

/-- `page = v[15:8]` (R5). -/
def pageOf (v : Word) : Byte := v.extractLsb' 8 8

/-- `offset = v[7:0]` (R5). -/
def offsetOf (v : Word) : Byte := v.extractLsb' 0 8

/-- `from_page_offset(p, o)`, the Word `p * 256 + o` (R5); written of two bytes, `hi:lo` (00_scope.md section 5). -/
def fromPageOffset (page offset : Byte) : Word := page ++ offset

/-- The low byte of a Word, which memory holds at the lower address (R61). -/
def lowByte (v : Word) : Byte := offsetOf v

/-- The high byte of a Word (R61). -/
def highByte (v : Word) : Byte := pageOf v

/-- `zext_16(b)` (00_scope.md section 5). -/
def zext16 (b : Byte) : Word := b.setWidth 16

/-- `sext_16(b)` (00_scope.md section 5, R158). -/
def sext16 (b : Byte) : Word := b.signExtend 16

/-- One uppercase hexadecimal digit. -/
def hexDigit (n : Nat) : Char :=
  match n with
  | 0 => '0' | 1 => '1' | 2 => '2' | 3 => '3' | 4 => '4' | 5 => '5' | 6 => '6' | 7 => '7'
  | 8 => '8' | 9 => '9' | 10 => 'A' | 11 => 'B' | 12 => 'C' | 13 => 'D' | 14 => 'E' | _ => 'F'

/-- The diagnostic display of an Address: "4 hex digits, uppercase, zero-padded" (R6). -/
def displayAddress (v : Word) : List Char :=
  [hexDigit (v.toNat / 4096), hexDigit (v.toNat / 256 % 16), hexDigit (v.toNat / 16 % 16), hexDigit (v.toNat % 16)]

end Sys2Proof.Machine
end

