-- ==== Sys2Proof/Machine/Ops.lean ====
section
/-! DEFINITION. The named operations the meanings are built from: the byte store, register reads, the five bus
operations (R50 to R55) and the three device operations (R58 to R60), raising an error (R207, R208), and running one
command of the block or one operation of another master. -/

namespace Sys2Proof.Machine

/-! ### The byte store (R56) -/

/-- What an address that is not listed reads as: `0x00` (DESIGN CHOICE, log entry 3: the spec leaves `MEM0` open). -/
def Memory.unlisted : Byte := 0x00

/-- The byte at an address. -/
def Memory.read : Memory → Nat → Byte
  | [], _ => Memory.unlisted
  | (b, v) :: rest, a => if a = b then v else Memory.read rest a

/-- Store a byte at an address, keeping the canonical form. -/
def Memory.write : Memory → Nat → Byte → Memory
  | [], a, v => if v = Memory.unlisted then [] else [(a, v)]
  | (b, w) :: rest, a, v =>
    if a < b then
      if v = Memory.unlisted then (b, w) :: rest else (a, v) :: (b, w) :: rest
    else if a = b then
      if v = Memory.unlisted then rest else (a, v) :: rest
    else (b, w) :: Memory.write rest a v

/-- Store a byte sequence at ascending addresses (R55). -/
def Memory.writeSeq : Memory → Nat → List Byte → Memory
  | m, _, [] => m
  | m, a, v :: vs => Memory.writeSeq (Memory.write m a v) (a + 1) vs

/-- A device of `cap` bytes that all hold `v` (R58). -/
def Memory.filled (cap : Nat) (v : Byte) : Memory :=
  if v = Memory.unlisted then [] else (List.range cap).map fun a => (a, v)

/-- The canonical form: addresses strictly rising, no listed byte equal to what an unlisted address reads as. -/
def Memory.wf : Memory → Bool
  | [] => true
  | (b, v) :: rest => v != Memory.unlisted && rest.all (fun c => decide (b < c.1)) && Memory.wf rest

/-! ### Register reads (R37) -/

/-- The outcome of a part of a command: a value and the state reached, or the error that ends the command (R206) and
the state it was raised in. -/
inductive Res (α : Type) where
  | ok (v : α) (s : State)
  | err (e : ErrorRecord) (s : State)

/-- Do one thing after another; nothing after a raised error is done (00_scope.md section 5, R206). -/
def Res.bind {α β : Type} (r : Res α) (k : α → State → Res β) : Res β :=
  match r with
  | .ok v s => k v s
  | .err e s => .err e s

/-- Read a register, raising `Unwritten` where its valid bit is clear (R37). -/
def readReg {w : Nat} (sel : RegSel) (r : Reg w) (s : State) : Res (BitVec w) :=
  if r.valid then .ok r.value s else .err (.unwritten sel) s

/-! ### Bus operations (R50 to R55, R68, R74, R75) -/

/-- Append one issued bus operation to the event history (R74; a failed one too: DESIGN CHOICE, log entry 11). -/
def recordEvent (m : Master) (op : BusOp) (addr width : Nat) (value : Option (List Byte)) (s : State) : State :=
  { s with events := s.events ++ [⟨m, op, addr, width, value⟩] }

/-- `ReadByte(addr)` (R51). -/
def busReadByte (m : Master) (addr : Word) (s : State) : Res Byte :=
  if addr.toNat < s.params.cap then
    let b := Memory.read s.mem addr.toNat
    .ok b (recordEvent m .readByte addr.toNat 1 (some [b]) s)
  else .err (.busRange addr.toNat 1 .read) (recordEvent m .readByte addr.toNat 1 none s)

/-- `ReadWord(addr)`: little-endian, `addr + 1` without wrap, the check made before either byte is read (R52). -/
def busReadWord (m : Master) (addr : Word) (s : State) : Res Word :=
  if addr.toNat + 1 < s.params.cap then
    let lo := Memory.read s.mem addr.toNat
    let hi := Memory.read s.mem (addr.toNat + 1)
    .ok (fromPageOffset hi lo) (recordEvent m .readWord addr.toNat 2 (some [lo, hi]) s)
  else .err (.busRange addr.toNat 2 .read) (recordEvent m .readWord addr.toNat 2 none s)

/-- The store shared by the three writes (R53 to R55): the whole range is checked first, and then all of the bytes
are stored, or none (R75). An empty sequence stores nothing and raises nothing. -/
def busWrite (m : Master) (op : BusOp) (addr : Word) (bytes : List Byte) (s : State) : Res Unit :=
  if bytes.isEmpty || decide (addr.toNat + bytes.length ≤ s.params.cap) then
    .ok () (recordEvent m op addr.toNat bytes.length (some bytes)
      { s with mem := Memory.writeSeq s.mem addr.toNat bytes })
  else .err (.busRange addr.toNat bytes.length .write) (recordEvent m op addr.toNat bytes.length none s)

/-- `WriteByte(addr, value)` (R53). -/
def busWriteByte (m : Master) (addr : Word) (value : Byte) (s : State) : Res Unit :=
  busWrite m .writeByte addr [value] s

/-- `WriteWord(addr, value)`, little-endian (R54). -/
def busWriteWord (m : Master) (addr : Word) (value : Word) (s : State) : Res Unit :=
  busWrite m .writeWord addr [lowByte value, highByte value] s

/-- `WriteBytes(addr, s)` (R55). -/
def busWriteBytes (m : Master) (addr : Word) (bytes : List Byte) (s : State) : Res Unit :=
  busWrite m .writeBytes addr bytes s

/-! ### The device's own operations, outside the bus contract (R58 to R60) -/

/-- `Clear(value)` (R58). -/
def deviceClear (v : Byte) (s : State) : Res Unit :=
  .ok () { s with mem := Memory.filled s.params.cap v }

/-- Indexed read `mem[i]` (R59). -/
def deviceRead (i : Nat) (s : State) : Res Byte :=
  if i < s.params.cap then .ok (Memory.read s.mem i) s else .err (.busRange i 1 .read) s

/-- Indexed write `mem[i] <- v` (R60). -/
def deviceWrite (i : Nat) (v : Byte) (s : State) : Res Unit :=
  if i < s.params.cap then .ok () { s with mem := Memory.write s.mem i v } else .err (.busRange i 1 .write) s

/-! ### Results, errors and refusals -/

/-- Return a result on the command port (R100). -/
def respond (r : Result) (s : State) : State := { s with results := s.results ++ [r] }

/-- Answer another master. -/
def reply (r : BusReply) (s : State) : State := { s with replies := s.replies ++ [r] }

/-- Raise an error: `Error(kind, info)` is returned and `FAULT` is set (R207). Nothing is saved and control goes
nowhere. There is no return from an error (R209). It is a next state (DEDUCED, log entry 5). -/
def takeError (e : ErrorRecord) (s : State) : State :=
  { s with fault := some e, results := s.results ++ [.error e] }

/-- The numeric code of an error (R101). -/
def errorCode : ErrorRecord → Nat
  | .busRange _ _ _ => 1
  | .illegalMode _ => 2
  | .unwritten _ => 3

/-- How far `PC` has been advanced between two states of one resolution. -/
def pcAdvance (entry reached : State) : Nat := (reached.pc.value - entry.pc.value).toNat

/-- After a failed resolution `PC` holds "the entry value or any value the resolution's increments had reached"
(R208): a free choice among them (DESIGN CHOICE, log entry 1). -/
def forgetPc (entry reached : State) : State :=
  { reached with
    pc := ⟨entry.pc.value + BitVec.ofNat 16 (Config.freePcAdvance reached.draws % (pcAdvance entry reached + 1)),
      reached.pc.valid⟩
    draws := reached.draws + 1 }

/-- A command is accepted only while `FAULT` is none (R209; DEDUCED, log entry 5). -/
def acceptCommand (s : State) (k : State → Out) : Out :=
  match s.fault with
  | none => k s
  | some e => .fault (.blockFaulted e)

/-- A refused command: no result, no error, no state change but the refusal mark (R99, R210; DEDUCED, log entry 16). -/
def refuseCommand (s : State) : Out :=
  acceptCommand s fun s => .next { s with refusalMark := true }

/-- Run an accepted command: its result, or the error it raises (R100, R206, R207). -/
def runCommand (s : State) (body : State → Res Result) : Out :=
  acceptCommand s fun s =>
    match body s with
    | .ok r s' => .next (respond r s')
    | .err e s' => .next (takeError e s')

/-- Run an accepted resolution: as `runCommand`, but an error leaves `PC` unknown (R208). -/
def runResolve (s : State) (body : State → Res Result) : Out :=
  acceptCommand s fun s =>
    match body s with
    | .ok r s' => .next (respond r s')
    | .err e s' => .next (takeError e (forgetPc s s'))

/-- The operand of an 8-bit write: `data[7:0]`, refused where `data[15:8] != 0` (R98, R99). -/
def withByteData (d : Word) (s : State) (k : Byte → Out) : Out :=
  if dataIsByte d then k (lowByte d) else refuseCommand s

/-- Run an operation another master issues: the device's answer goes to it, a range error too, and the block is not
involved (R70; DEDUCED, log entry 19). -/
def runDevice (s : State) (body : State → Res BusReply) : Out :=
  match body s with
  | .ok r s' => .next (reply r s')
  | .err e s' => .next (reply (.error e) s')

/-! ### Taking a transaction from the ports (R2, R70) -/

/-- The other master a transaction comes from; a command leaves the number as it is (DESIGN CHOICE, log entry 12). -/
def requesterOf (r : Request) (before : Nat) : Nat :=
  match r with
  | .command _ _ => before
  | .bus m _ _ => m

/-- Take the next transaction off the ports. -/
def takeRequest (r : Request) (rest : List Request) (s : State) : State :=
  { s with inputs := rest, requester := requesterOf r s.requester }

/-- A transaction that spells no instruction: a command is refused (R99, R210); operands that fit no operation of the
device set the same mark (DESIGN CHOICE, log entry 8). -/
def refuseRequest (r : Request) (s : State) : Out :=
  match r with
  | .command _ _ => refuseCommand s
  | .bus _ _ _ => .next { s with refusalMark := true }

/-- Put a transaction in front of those still to come. -/
def placeRequest (r : Request) (s : State) : State := { s with inputs := r :: s.inputs }

end Sys2Proof.Machine
end

