-- ==== Sys2Proof/Machine/Accessors.lean ====
section
/-! DEFINITION. The register and status-flag accessors (40_accessors.md). -/

namespace Sys2Proof.Machine

/-- Return the byte of a register (R121 to R126). -/
def getByte (sel : RegSel) (r : Reg 8) (s : State) : Res Result :=
  (readReg sel r s).bind fun v s => .ok (.value (.byte v)) s

/-- GET_PC (R120). -/
def execGetPc (s : State) : Out :=
  runCommand s fun s => (readReg .PC s.pc s).bind fun v s => .ok (.value (.word v)) s

/-- GET_SP (R121). -/
def execGetSp (s : State) : Out := runCommand s fun s => getByte .SP s.sp s

/-- GET_A (R122). -/
def execGetA (s : State) : Out := runCommand s fun s => getByte .A s.a s

/-- GET_X (R123). -/
def execGetX (s : State) : Out := runCommand s fun s => getByte .X s.x s

/-- GET_Y (R124). -/
def execGetY (s : State) : Out := runCommand s fun s => getByte .Y s.y s

/-- GET_P (R125). -/
def execGetP (s : State) : Out := runCommand s fun s => getByte .P s.p s

/-- GET_IMP (R126). -/
def execGetImp (s : State) : Out := runCommand s fun s => getByte .IMP s.imp s

/-- SET_PC: every value is accepted (R127). -/
def execSetPc (d : Word) (s : State) : Out :=
  runCommand s fun s => .ok .done { s with pc := .of 16 d }

/-- SET_SP (R128). -/
def execSetSp (d : Word) (s : State) : Out :=
  withByteData d s fun b => runCommand s fun s => .ok .done { s with sp := .of 8 b }

/-- SET_A (R129). -/
def execSetA (d : Word) (s : State) : Out :=
  withByteData d s fun b => runCommand s fun s => .ok .done { s with a := .of 8 b }

/-- SET_X (R130). -/
def execSetX (d : Word) (s : State) : Out :=
  withByteData d s fun b => runCommand s fun s => .ok .done { s with x := .of 8 b }

/-- SET_Y (R131). -/
def execSetY (d : Word) (s : State) : Out :=
  withByteData d s fun b => runCommand s fun s => .ok .done { s with y := .of 8 b }

/-- SET_P: all eight flags, to the bits of the operand (R132). -/
def execSetP (d : Word) (s : State) : Out :=
  withByteData d s fun b => runCommand s fun s => .ok .done { s with p := .of 8 b }

/-- SET_IMPLICIT (R133). -/
def execSetImplicit (d : Word) (s : State) : Out :=
  withByteData d s fun b => runCommand s fun s => .ok .done { s with imp := .of 8 b }

/-- GET_FLAG (R134). -/
def execGetFlag (f : Flag) (s : State) : Out :=
  runCommand s fun s => (readReg .P s.p s).bind fun p s => .ok (.value (.byte (flagByte p f))) s

/-- HAS_FLAG (R135). -/
def execHasFlag (f : Flag) (s : State) : Out :=
  runCommand s fun s => (readReg .P s.p s).bind fun p s => .ok (.value (.bool (flagSet p f))) s

/-- SET_FLAG: the other seven bits are read, so an invalid `P` raises `Unwritten` (R136). -/
def execSetFlag (v : Bool) (f : Flag) (s : State) : Out :=
  runCommand s fun s => (readReg .P s.p s).bind fun p s => .ok .done { s with p := .of 8 (withFlag p f v) }

end Sys2Proof.Machine
end

