-- ==== Sys2Proof/Machine/Device.lean ====
section
/-! DEFINITION. The operations of the bus device as another master issues them (R50 to R60, R70, R104). -/

namespace Sys2Proof.Machine

/-- ReadByte (R51). -/
def execBusReadByte (addr : Word) (s : State) : Out :=
  runDevice s fun s => (busReadByte (.other s.requester) addr s).bind fun b s => .ok (.byte b) s

/-- ReadWord (R52). -/
def execBusReadWord (addr : Word) (s : State) : Out :=
  runDevice s fun s => (busReadWord (.other s.requester) addr s).bind fun w s => .ok (.word w) s

/-- WriteByte (R53). -/
def execBusWriteByte (addr : Word) (value : Byte) (s : State) : Out :=
  runDevice s fun s => (busWriteByte (.other s.requester) addr value s).bind fun _ s => .ok .done s

/-- WriteWord (R54). -/
def execBusWriteWord (addr value : Word) (s : State) : Out :=
  runDevice s fun s => (busWriteWord (.other s.requester) addr value s).bind fun _ s => .ok .done s

/-- WriteBytes (R55). -/
def execBusWriteBytes (addr : Word) (seq : List Byte) (s : State) : Out :=
  runDevice s fun s => (busWriteBytes (.other s.requester) addr seq s).bind fun _ s => .ok .done s

/-- Clear (R58). -/
def execMemClear (value : Byte) (s : State) : Out :=
  runDevice s fun s => (deviceClear value s).bind fun _ s => .ok .done s

/-- Indexed read (R59). -/
def execMemIndexedRead (i : Nat) (s : State) : Out :=
  runDevice s fun s => (deviceRead i s).bind fun b s => .ok (.byte b) s

/-- Indexed write (R60). -/
def execMemIndexedWrite (i : Nat) (value : Byte) (s : State) : Out :=
  runDevice s fun s => (deviceWrite i value s).bind fun _ s => .ok .done s

end Sys2Proof.Machine
end

