-- ==== Sys2Proof/Machine/PassThrough.lean ====
section
/-! DEFINITION. The bus pass-through writes (44_bus_passthrough.md). -/

namespace Sys2Proof.Machine

/-- WRITE_BYTE (R190). -/
def execWriteByte (addr data : Word) (s : State) : Out :=
  withByteData data s fun b => runCommand s fun s => (busWriteByte .cpu addr b s).bind fun _ s => .ok .done s

/-- WRITE_WORD (R191). -/
def execWriteWord (addr data : Word) (s : State) : Out :=
  runCommand s fun s => (busWriteWord .cpu addr data s).bind fun _ s => .ok .done s

/-- WRITE_BYTES (R192). -/
def execWriteBytes (addr : Word) (seq : List Byte) (s : State) : Out :=
  runCommand s fun s => (busWriteBytes .cpu addr seq s).bind fun _ s => .ok .done s

end Sys2Proof.Machine
end

