-- ==== Sys2Proof/Machine/Reset.lean ====
section
/-! DEFINITION. Construction (R220, R57, R204) and the RESET command (R221). -/

namespace Sys2Proof.Machine

/-- RESET: the literal `0xFFFC`, the low byte of `0x0100` and every flag clear; nothing else changes (R221). -/
def execReset (s : State) : Out :=
  runCommand s fun s => .ok .done { s with pc := .of 16 0xFFFC, sp := .of 8 0x00, p := .of 8 0x00 }

/-- Why no machine is built. -/
inductive ConstructError where
  /-- A capacity of zero or less (R204), or above 65536 (R57). -/
  | capacity (cap : Int)
  /-- `MEM0` is not an array of `CAP` bytes (R56; DEDUCED, log entry 20). -/
  | contents
  deriving DecidableEq, Repr

/-- Construction (R220): the memory device with capacity `cap` and contents `mem0`, then the block with every valid
bit clear and `FAULT` none. -/
def construct (cap : Int) (mem0 : List Byte) (zpPointerWrap : Bool) : Except ConstructError State :=
  if cap < 1 ∨ 65536 < cap then .error (.capacity cap)
  else if mem0.length ≠ cap.toNat then .error .contents
  else .ok { State.reset with
    pc := .unwritten 16
    sp := .unwritten 8
    p := .unwritten 8
    params := ⟨cap.toNat, zpPointerWrap⟩
    mem := Memory.writeSeq [] 0 mem0 }

end Sys2Proof.Machine
end

