-- ==== Sys2Proof/Machine/Operands.lean ====
section
/-! DEFINITION. Operand fetch and address arithmetic of the resolutions (R92, R151, R152, R174, R175, R181), and the
two tables of the modes: bytes consumed (R23) and base cycles (R151). -/

namespace Sys2Proof.Machine

/-- The PC bytes a mode consumes (R23). -/
def pcBytes : Mode → Nat
  | .acc | .impl => 0
  | .imm | .zp | .zpX | .zpY | .indX | .indY | .rel => 1
  | .abs | .absX | .absY | .ind => 2

/-- `BaseCycles(m)` (R151). -/
def baseCycles : Mode → Nat
  | .acc => 1
  | .impl => 1
  | .imm => 1
  | .abs => 3
  | .zp => 2
  | .absX => 3
  | .absY => 3
  | .zpX => 2
  | .zpY => 2
  | .ind => 5
  | .indX => 5
  | .indY => 5
  | .rel => 1

/-- A penalty cycle, or none (R151). -/
def penalty (c : Bool) : Nat := if c then 1 else 0

/-- `PC <- (PC + 1) mod 65536` (R24); a write of `PC` sets its valid bit (R36). -/
def incPc (s : State) : State := { s with pc := ⟨s.pc.value + 1, true⟩ }

/-- `FetchByte()`: the operand byte at `PC`, then `PC` advances (R152). -/
def fetchByte (s : State) : Res Byte :=
  (readReg .PC s.pc s).bind fun pc s =>
  (busReadByte .cpu pc s).bind fun b s =>
  .ok b (incPc s)

/-- `FetchWord()`: two byte reads, low byte first, `PC` advancing after each (R152). -/
def fetchWord (s : State) : Res Word :=
  (fetchByte s).bind fun lo s =>
  (fetchByte s).bind fun hi s =>
  .ok (fromPageOffset hi lo) s

/-- The absolute-indexed sum, `(base + zext_16(i)) mod 65536` (R92, R174). -/
def indexAbs (base : Word) (i : Byte) : Word := base + zext16 i

/-- An absolute-indexed sum crosses a page: the high bytes differ (R174). -/
def crossesPage (base ea : Word) : Bool := pageOf ea != pageOf base

/-- The zero-page indexed sum, `(b + i) mod 256` (R92, R175). -/
def indexZp (b i : Byte) : Byte := b + i

/-- The zero-page addition wraps: `b + i > 0xFF` (R182). -/
def wrapsZp (b i : Byte) : Bool := decide (b.toNat + i.toNat > 0xFF)

/-- The Address of a zero-page offset, `from_page_offset(0x00, b)` (R92). -/
def zpAddress (b : Byte) : Word := fromPageOffset 0x00 b

/-- `ZpPointer(z)` (R181): two byte reads within page 0, or one word read without the wrap. -/
def zpPointer (z : Byte) (s : State) : Res Word :=
  if s.params.zpPointerWrap then
    (busReadByte .cpu (zext16 z) s).bind fun lo s =>
    (busReadByte .cpu (zext16 (z + 1)) s).bind fun hi s =>
    .ok (fromPageOffset hi lo) s
  else busReadWord .cpu (zext16 z) s

/-- `return Addr(a, BaseCycles(m) + penalty)` (R100, R151). -/
def returnAddr (m : Mode) (a : Word) (pen : Bool) (s : State) : Res Result :=
  .ok (.addr a (baseCycles m + penalty pen)) s

end Sys2Proof.Machine
end

