-- ==== Sys2Proof/Machine/Resolve.lean ====
section
/-! DEFINITION. The RESOLVE commands (R150): for each mode its resolver and its meaning. -/

namespace Sys2Proof.Machine

/-- ACC and IMPL: the accumulator is latched together with its validity, and no address is returned (R38, R153, R154). -/
def latchImplicit (m : Mode) (s : State) : Res Result :=
  .ok (.implicit (baseCycles m)) { s with imp := s.a }

/-- IMM: the address of the operand byte, which is not read (R155). -/
def resolveImmediate (s : State) : Res Result :=
  (readReg .PC s.pc s).bind fun pc s =>
  returnAddr .imm pc false (incPc s)

/-- ABS: the Word of the operand bytes (R156). -/
def resolveAbsolute (s : State) : Res Result :=
  (fetchWord s).bind fun a s =>
  returnAddr .abs a false s

/-- ZP: the operand byte as an Address of page 0 (R157). -/
def resolveZeroPage (s : State) : Res Result :=
  (fetchByte s).bind fun b s =>
  returnAddr .zp (zpAddress b) false s

/-- An absolute mode indexed by a register: the base is fetched, then the register read, then the sum formed (R170,
R171, R174). -/
def resolveAbsIndexed (m : Mode) (sel : RegSel) (index : Reg 8) (s : State) : Res Result :=
  (fetchWord s).bind fun base s =>
  (readReg sel index s).bind fun i s =>
  returnAddr m (indexAbs base i) (crossesPage base (indexAbs base i)) s

/-- A zero-page mode indexed by a register: never a penalty (R172, R173, R175). -/
def resolveZpIndexed (m : Mode) (sel : RegSel) (index : Reg 8) (s : State) : Res Result :=
  (fetchByte s).bind fun b s =>
  (readReg sel index s).bind fun i s =>
  returnAddr m (zpAddress (indexZp b i)) false s

/-- IND: the word at the pointer, its high byte at `ptr + 1` with the carry and without wrap (R180). -/
def resolveIndirect (s : State) : Res Result :=
  (fetchWord s).bind fun ptr s =>
  (busReadWord .cpu ptr s).bind fun ea s =>
  returnAddr .ind ea false s

/-- IND_X: the penalty is that of the zero-page addition (R182). -/
def resolveIndexedIndirect (s : State) : Res Result :=
  (fetchByte s).bind fun b s =>
  (readReg .X s.x s).bind fun i s =>
  (zpPointer (indexZp b i) s).bind fun ea s =>
  returnAddr .indX ea (wrapsZp b i) s

/-- IND_Y: the penalty is that of the pointer-forming addition `z + 1`, not of the final sum (R183). -/
def resolveIndirectIndexed (s : State) : Res Result :=
  (fetchByte s).bind fun z s =>
  (zpPointer z s).bind fun base s =>
  (readReg .Y s.y s).bind fun i s =>
  returnAddr .indY (indexAbs base i) (z == 0xFF) s

/-- REL: the sign-extended offset, not a memory location (R158). -/
def resolveRelative (s : State) : Res Result :=
  (fetchByte s).bind fun b s =>
  returnAddr .rel (sext16 b) false s

/-- RESOLVE(ACC), code 0 (R153). -/
def execResolveAcc (s : State) : Out := runResolve s (latchImplicit .acc)

/-- RESOLVE(IMPL), code 1 (R154). -/
def execResolveImpl (s : State) : Out := runResolve s (latchImplicit .impl)

/-- RESOLVE(IMM), code 2 (R155). -/
def execResolveImm (s : State) : Out := runResolve s resolveImmediate

/-- RESOLVE(ABS), code 3 (R156). -/
def execResolveAbs (s : State) : Out := runResolve s resolveAbsolute

/-- RESOLVE(ZP), code 4 (R157). -/
def execResolveZp (s : State) : Out := runResolve s resolveZeroPage

/-- RESOLVE(ABS_X), code 5 (R170). -/
def execResolveAbsX (s : State) : Out := runResolve s (resolveAbsIndexed .absX .X s.x)

/-- RESOLVE(ABS_Y), code 6 (R171). -/
def execResolveAbsY (s : State) : Out := runResolve s (resolveAbsIndexed .absY .Y s.y)

/-- RESOLVE(ZP_X), code 7 (R172). -/
def execResolveZpX (s : State) : Out := runResolve s (resolveZpIndexed .zpX .X s.x)

/-- RESOLVE(ZP_Y), code 8 (R173). -/
def execResolveZpY (s : State) : Out := runResolve s (resolveZpIndexed .zpY .Y s.y)

/-- RESOLVE(IND), code 9 (R180). -/
def execResolveInd (s : State) : Out := runResolve s resolveIndirect

/-- RESOLVE(IND_X), code 10 (R182). -/
def execResolveIndX (s : State) : Out := runResolve s resolveIndexedIndirect

/-- RESOLVE(IND_Y), code 11 (R183). -/
def execResolveIndY (s : State) : Out := runResolve s resolveIndirectIndexed

/-- RESOLVE(REL), code 12 (R158). -/
def execResolveRel (s : State) : Out := runResolve s resolveRelative

/-- RESOLVE of the illegal mode, code 13 (R160). No register is read or written, so `PC` stays known (R208). -/
def execResolveIllegal (s : State) : Out := runCommand s fun s => .err (.illegalMode 13) s

/-- RESOLVE of the unrecognized code 14 (R160). -/
def execResolveUnrecognized14 (s : State) : Out := runCommand s fun s => .err (.illegalMode 14) s

/-- RESOLVE of the unrecognized code 15 (R160). -/
def execResolveUnrecognized15 (s : State) : Out := runCommand s fun s => .err (.illegalMode 15) s

end Sys2Proof.Machine
end

