-- ==== Sys2Proof/Machine/Dispatch.lean ====
section
/-! DEFINITION. The one dispatch: each instruction's arm is a direct call of its meaning. -/

namespace Sys2Proof.Machine

def exec (i : Instr) (s : State) : Host.Outcome State Fault Refusal :=
  match i with
  | .resolveAcc => Sys2Proof.Machine.execResolveAcc s
  | .resolveImpl => Sys2Proof.Machine.execResolveImpl s
  | .resolveImm => Sys2Proof.Machine.execResolveImm s
  | .resolveAbs => Sys2Proof.Machine.execResolveAbs s
  | .resolveZp => Sys2Proof.Machine.execResolveZp s
  | .resolveAbsX => Sys2Proof.Machine.execResolveAbsX s
  | .resolveAbsY => Sys2Proof.Machine.execResolveAbsY s
  | .resolveZpX => Sys2Proof.Machine.execResolveZpX s
  | .resolveZpY => Sys2Proof.Machine.execResolveZpY s
  | .resolveInd => Sys2Proof.Machine.execResolveInd s
  | .resolveIndX => Sys2Proof.Machine.execResolveIndX s
  | .resolveIndY => Sys2Proof.Machine.execResolveIndY s
  | .resolveRel => Sys2Proof.Machine.execResolveRel s
  | .resolveIllegal => Sys2Proof.Machine.execResolveIllegal s
  | .resolveUnrecognized14 => Sys2Proof.Machine.execResolveUnrecognized14 s
  | .resolveUnrecognized15 => Sys2Proof.Machine.execResolveUnrecognized15 s
  | .reset => Sys2Proof.Machine.execReset s
  | .getPc => Sys2Proof.Machine.execGetPc s
  | .getSp => Sys2Proof.Machine.execGetSp s
  | .getA => Sys2Proof.Machine.execGetA s
  | .getX => Sys2Proof.Machine.execGetX s
  | .getY => Sys2Proof.Machine.execGetY s
  | .getP => Sys2Proof.Machine.execGetP s
  | .getImp => Sys2Proof.Machine.execGetImp s
  | .setPc data => Sys2Proof.Machine.execSetPc data s
  | .setSp data => Sys2Proof.Machine.execSetSp data s
  | .setA data => Sys2Proof.Machine.execSetA data s
  | .setX data => Sys2Proof.Machine.execSetX data s
  | .setY data => Sys2Proof.Machine.execSetY data s
  | .setP data => Sys2Proof.Machine.execSetP data s
  | .setImplicit data => Sys2Proof.Machine.execSetImplicit data s
  | .getFlag f => Sys2Proof.Machine.execGetFlag f s
  | .hasFlag f => Sys2Proof.Machine.execHasFlag f s
  | .setFlag v f => Sys2Proof.Machine.execSetFlag v f s
  | .writeByte addr data => Sys2Proof.Machine.execWriteByte addr data s
  | .writeWord addr data => Sys2Proof.Machine.execWriteWord addr data s
  | .writeBytes addr seq => Sys2Proof.Machine.execWriteBytes addr seq s
  | .busReadByte addr => Sys2Proof.Machine.execBusReadByte addr s
  | .busReadWord addr => Sys2Proof.Machine.execBusReadWord addr s
  | .busWriteByte addr value => Sys2Proof.Machine.execBusWriteByte addr value s
  | .busWriteWord addr value => Sys2Proof.Machine.execBusWriteWord addr value s
  | .busWriteBytes addr seq => Sys2Proof.Machine.execBusWriteBytes addr seq s
  | .memClear value => Sys2Proof.Machine.execMemClear value s
  | .memIndexedRead index => Sys2Proof.Machine.execMemIndexedRead index s
  | .memIndexedWrite index value => Sys2Proof.Machine.execMemIndexedWrite index value s

end Sys2Proof.Machine
end

