-- ==== Sys2Proof/Machine/Step.lean ====
section
/-! DEFINITION. One step: the next transaction on the ports, decoded and performed to completion (R4, R70). -/

namespace Sys2Proof.Machine

/-- One transaction. With none pending nothing happens: the block acts only on a command (R2, R226; DESIGN CHOICE,
log entry 7). -/
def step (s : State) : Host.Outcome State Fault Refusal :=
  match s.inputs with
  | [] => .next s
  | r :: rest =>
    match decode r with
    | .ok i => exec i (takeRequest r rest s)
    | .error _ => refuseRequest r (takeRequest r rest s)

/-- `s` with the transaction of an opcode-table row's bits next on the ports, its operands zero (log entry 9). -/
def State.withFetchWord (s : State) (nbits w : Nat) : State := placeRequest (tableRequest s.requester nbits w) s

end Sys2Proof.Machine
end

