-- ==== Sys2Proof/Safety.lean ====
section
/-! DEFINITION. What counts as a good run (R227), the invariant of every step, and the words the statements are
written in: what a resolution reads, what its next state is, and how it fails. -/

namespace Sys2Proof.Machine

/-! ### Good runs and the invariant -/

/-- An error result (R100). -/
def isError : Result → Bool
  | .error _ => true
  | .addr _ _ | .implicit _ | .value _ | .done => false

/-- A run has ended well: the caller has issued its last command, every command returned a non-error result and no
refusal mark is set (R227). R227 speaks of the caller's commands alone; that no operation of another master is pending
either (`inputs` is empty, of both ports) is the model's choice (DESIGN CHOICE, log entry 21). -/
def EndedWell (s : State) : Prop :=
  s.inputs = [] ∧ s.fault = none ∧ s.refusalMark = false ∧ s.results.all (fun r => !isError r) = true

/-- The results returned so far fit `FAULT`: without one no result is an error, and with one the last result, and only
it, is that error (R35, R206, R207, R209). -/
def ResultsFit (fault : Option ErrorRecord) (results : List Result) : Prop :=
  match fault with
  | none => ∀ r ∈ results, isError r = false
  | some e => ∃ before, results = before ++ [.error e] ∧ ∀ r ∈ before, isError r = false

/-- The invariant of the machine: a legal capacity (R57), a byte store in canonical form that lists no address outside
the device (R56), and results that fit `FAULT`. -/
structure MachineInv (s : State) : Prop where
  capacity : 1 ≤ s.params.cap ∧ s.params.cap ≤ 65536
  canonical : Memory.wf s.mem = true
  inDevice : ∀ c ∈ s.mem, c.1 < s.params.cap
  resultsFit : ResultsFit s.fault s.results

/-! ### Classes of instructions -/

/-- The RESOLVE command of a valid mode (R94, R150). -/
def modeInstr : Mode → Instr
  | .acc => .resolveAcc
  | .impl => .resolveImpl
  | .imm => .resolveImm
  | .abs => .resolveAbs
  | .zp => .resolveZp
  | .absX => .resolveAbsX
  | .absY => .resolveAbsY
  | .zpX => .resolveZpX
  | .zpY => .resolveZpY
  | .ind => .resolveInd
  | .indX => .resolveIndX
  | .indY => .resolveIndY
  | .rel => .resolveRel

/-- An operation of the bus device, issued by another master, and not a command of the block (R104). -/
def isDeviceOp (i : Instr) : Bool := (codeOf (encode i)).1 == .bus

/-- The memory operations outside the bus contract (R58, R60), which the event history does not show. -/
def isOutsideBus (i : Instr) : Bool :=
  (codeOf (encode i)).1 == .bus && ((codeOf (encode i)).2 == 0b101#8 || (codeOf (encode i)).2 == 0b111#8)

/-- The reserved command words, as R99 lists them. -/
def ReservedWord (w : Byte) : Prop :=
  (0x11 ≤ w.toNat ∧ w.toNat ≤ 0x1F) ∨ w.toNat = 0x27 ∨ (0x28 ≤ w.toNat ∧ w.toNat ≤ 0x2F) ∨ w.toNat = 0x37 ∨
  (0x38 ≤ w.toNat ∧ w.toNat ≤ 0x3F) ∨ (0x48 ≤ w.toNat ∧ w.toNat ≤ 0x4F) ∨ (0x58 ≤ w.toNat ∧ w.toNat ≤ 0x5F) ∨
  (0x73 ≤ w.toNat ∧ w.toNat ≤ 0x7F) ∨ 0x80 ≤ w.toNat

/-- A reserved command: a reserved word, or an 8-bit `SET_*` or `WRITE_BYTE` with `data[15:8] != 0` (R99). -/
def ReservedCommand (w : Byte) (ops : CommandOperands) : Prop :=
  ReservedWord w ∨
  ((0x31 ≤ w.toNat ∧ w.toNat ≤ 0x36) ∧ ∃ d, ops = .data d ∧ 256 ≤ d.toNat) ∨
  (w.toNat = 0x70 ∧ ∃ a d, ops = .addrData a d ∧ 256 ≤ d.toNat)

/-- What each instruction that stores puts into a device of `cap` bytes, where it raises no error: the first address,
and the bytes at ascending addresses from it (R53 to R55, R58, R60, R190 to R192). The others store nothing. -/
def bytesStored (cap : Nat) : Instr → Option (Nat × List Byte)
  | .writeByte addr data => some (addr.toNat, [data.extractLsb' 0 8])
  | .writeWord addr value | .busWriteWord addr value =>
    some (addr.toNat, [value.extractLsb' 0 8, value.extractLsb' 8 8])
  | .writeBytes addr seq | .busWriteBytes addr seq => some (addr.toNat, seq)
  | .busWriteByte addr value => some (addr.toNat, [value])
  | .memClear value => some (0, List.replicate cap value)
  | .memIndexedWrite index value => some (index, [value])
  | .resolveAcc | .resolveImpl | .resolveImm | .resolveAbs | .resolveZp | .resolveAbsX | .resolveAbsY | .resolveZpX
  | .resolveZpY | .resolveInd | .resolveIndX | .resolveIndY | .resolveRel | .resolveIllegal | .resolveUnrecognized14
  | .resolveUnrecognized15 | .reset | .getPc | .getSp | .getA | .getX | .getY | .getP | .getImp | .setPc _ | .setSp _
  | .setA _ | .setX _ | .setY _ | .setP _ | .setImplicit _ | .getFlag _ | .hasFlag _ | .setFlag _ _ | .busReadByte _
  | .busReadWord _ | .memIndexedRead _ => none

/-- The form of result R100 gives each command that raises no error; an operation of another master has none. -/
def FitsForm (i : Instr) (r : Result) : Prop :=
  match i with
  | .resolveAcc | .resolveImpl => ∃ c, r = .implicit c
  | .resolveImm | .resolveAbs | .resolveZp | .resolveAbsX | .resolveAbsY | .resolveZpX | .resolveZpY | .resolveInd
  | .resolveIndX | .resolveIndY | .resolveRel => ∃ a c, r = .addr a c
  | .resolveIllegal | .resolveUnrecognized14 | .resolveUnrecognized15 => False
  | .getPc => ∃ v, r = .value (.word v)
  | .getSp | .getA | .getX | .getY | .getP | .getImp => ∃ v, r = .value (.byte v)
  | .getFlag _ => r = .value (.byte 0) ∨ r = .value (.byte 1)
  | .hasFlag _ => ∃ b, r = .value (.bool b)
  | .reset | .setPc _ | .setSp _ | .setA _ | .setX _ | .setY _ | .setP _ | .setImplicit _ | .setFlag _ _
  | .writeByte _ _ | .writeWord _ _ | .writeBytes _ _ => r = .done
  | .busReadByte _ | .busReadWord _ | .busWriteByte _ _ | .busWriteWord _ _ | .busWriteBytes _ _
  | .memClear _ | .memIndexedRead _ | .memIndexedWrite _ _ => False

/-- The modes that read operand bytes: all but ACC and IMPL, which take none, and IMM, which reads none (R153 to
R155). -/
def readsOperand : Mode → Bool
  | .acc | .impl | .imm => false
  | .abs | .zp | .absX | .absY | .zpX | .zpY | .ind | .indX | .indY | .rel => true

/-! ### What a resolution reads, where it ends and how it fails -/

/-- `b0`, the byte at the entry `PC` (R91). -/
def operand0 (s : State) : Byte := Memory.read s.mem s.pc.value.toNat

/-- `b1`, the byte at `(PC + 1) mod 65536` (R91). -/
def operand1 (s : State) : Byte := Memory.read s.mem (s.pc.value + 1).toNat

/-- A byte of page 0. -/
def zpByte (s : State) (z : Byte) : Byte := Memory.read s.mem z.toNat

/-- A `ReadByte` of the block that returned a byte (R51, R74). -/
def byteRead (addr : Nat) (b : Byte) : Event := ⟨.cpu, .readByte, addr, 1, some [b]⟩

/-- A `ReadByte` of the block that raised `BusRange` (R51, R74). -/
def byteReadFailed (addr : Nat) : Event := ⟨.cpu, .readByte, addr, 1, none⟩

/-- A `ReadWord` of the block that returned a Word (R52, R74). -/
def wordRead (addr : Nat) (lo hi : Byte) : Event := ⟨.cpu, .readWord, addr, 2, some [lo, hi]⟩

/-- A `ReadWord` of the block that raised `BusRange` (R52, R74). -/
def wordReadFailed (addr : Nat) : Event := ⟨.cpu, .readWord, addr, 2, none⟩

/-- The events `evs` are the events `expected`, where the bytes of an event expected without any are left open: R74 does
not say what the event of a failed operation carries beside the access (log entry 11). -/
def eventsMatch : (evs expected : List Event) → Prop
  | [], [] => True
  | ev :: evs, ex :: expected =>
    (ev.master = ex.master ∧ ev.op = ex.op ∧ ev.addr = ex.addr ∧ ev.width = ex.width ∧
      (ex.value = none ∨ ev.value = ex.value)) ∧ eventsMatch evs expected
  | [], _ :: _ | _ :: _, [] => False

/-- The state after a resolution that consumed `n` operand bytes, issued the bus reads `evs` and returned `r`: nothing
else has changed. -/
def resolved (s : State) (n : Nat) (evs : List Event) (r : Result) : State :=
  { s with
    pc := ⟨s.pc.value + BitVec.ofNat 16 n, true⟩
    events := s.events ++ evs
    results := s.results ++ [r] }

/-- The resolution `i` fails with `e` after the bus reads `expected` and `k` increments of `PC`: the error is returned and
`FAULT` set, `PC` holds the entry value or one of the values its increments reached, which of them is left open, and
nothing else changes but the model's draw counter (R207, R208). -/
def FailsWith (i : Instr) (s : State) (e : ErrorRecord) (expected : List Event) (k : Nat) : Prop :=
  ∃ n evs, n ≤ k ∧ eventsMatch evs expected ∧ exec i s = .next { s with
    pc := ⟨s.pc.value + BitVec.ofNat 16 n, s.pc.valid⟩
    fault := some e
    results := s.results ++ [.error e]
    events := s.events ++ evs
    draws := s.draws + 1 }

/-- The command `i` fails with `e` after the bus operations `expected`, and nothing but `FAULT` and the result changes
(R207, R208). -/
def FailsCleanly (i : Instr) (s : State) (e : ErrorRecord) (expected : List Event) : Prop :=
  ∃ evs, eventsMatch evs expected ∧ exec i s = .next { s with
    fault := some e
    results := s.results ++ [.error e]
    events := s.events ++ evs }

/-- The state after a command that returned `r` and did nothing else. -/
def returned (s : State) (r : Result) : State := { s with results := s.results ++ [r] }

/-- The accessor `i` reads the byte register `reg`, or raises `Unwritten` where it is invalid (R37). -/
def ReadsByte (i : Instr) (sel : RegSel) (reg : Reg 8) (s : State) : Prop :=
  (reg.valid = false → FailsCleanly i s (.unwritten sel) []) ∧
  (reg.valid = true → exec i s = .next (returned s (.value (.byte reg.value))))

/-- The device operation `i` answers `r` after the bus operations `evs`, and nothing else changes. -/
def Answers (i : Instr) (s : State) (evs : List Event) (r : BusReply) : Prop :=
  exec i s = .next { s with events := s.events ++ evs, replies := s.replies ++ [r] }

/-- The device operation `i` answers the error `e` after the bus operations `expected`, and nothing else changes. -/
def AnswersError (i : Instr) (s : State) (expected : List Event) (e : ErrorRecord) : Prop :=
  ∃ evs, eventsMatch evs expected ∧ Answers i s evs (.error e)

/-- How the resolution `i` reads one operand byte: the errors of `FetchByte` (R152), and otherwise `k` of the byte, with
the reads issued so far. -/
def OneOperand (i : Instr) (s : State) (k : Byte → List Event → Prop) : Prop :=
  (s.pc.valid = false → FailsWith i s (.unwritten .PC) [] 0) ∧
  (s.pc.valid = true → s.params.cap ≤ s.pc.value.toNat →
    FailsWith i s (.busRange s.pc.value.toNat 1 .read) [byteReadFailed s.pc.value.toNat] 0) ∧
  (s.pc.valid = true → s.pc.value.toNat < s.params.cap →
    k (operand0 s) [byteRead s.pc.value.toNat (operand0 s)])

/-- How the resolution `i` reads two operand bytes, low then high: the errors of `FetchWord` (R152), and otherwise `k`
of the Word, with the reads issued so far. -/
def TwoOperands (i : Instr) (s : State) (k : Word → List Event → Prop) : Prop :=
  OneOperand i s fun lo evs =>
    (s.params.cap ≤ (s.pc.value + 1).toNat →
      FailsWith i s (.busRange (s.pc.value + 1).toNat 1 .read)
        (evs ++ [byteReadFailed (s.pc.value + 1).toNat]) 1) ∧
    ((s.pc.value + 1).toNat < s.params.cap →
      k (operand1 s ++ lo) (evs ++ [byteRead (s.pc.value + 1).toNat (operand1 s)]))

/-- How the resolution `i`, after the reads `evs` and `n` increments of `PC`, reads the pointer at zero-page location
`z`, for either value of `ZP_POINTER_WRAP` (R181), and otherwise `k` of the pointer. -/
def PointerRead (i : Instr) (s : State) (z : Byte) (evs : List Event) (n : Nat)
    (k : Word → List Event → Prop) : Prop :=
  (s.params.zpPointerWrap = true →
    (s.params.cap ≤ z.toNat →
      FailsWith i s (.busRange z.toNat 1 .read) (evs ++ [byteReadFailed z.toNat]) n) ∧
    (z.toNat < s.params.cap → s.params.cap ≤ (z + 1).toNat →
      FailsWith i s (.busRange (z + 1).toNat 1 .read)
        (evs ++ [byteRead z.toNat (zpByte s z), byteReadFailed (z + 1).toNat]) n) ∧
    (z.toNat < s.params.cap → (z + 1).toNat < s.params.cap →
      k (zpByte s (z + 1) ++ zpByte s z)
        (evs ++ [byteRead z.toNat (zpByte s z), byteRead (z + 1).toNat (zpByte s (z + 1))]))) ∧
  (s.params.zpPointerWrap = false →
    (s.params.cap ≤ z.toNat + 1 →
      FailsWith i s (.busRange z.toNat 2 .read) (evs ++ [wordReadFailed z.toNat]) n) ∧
    (z.toNat + 1 < s.params.cap →
      k (Memory.read s.mem (z.toNat + 1) ++ zpByte s z)
        (evs ++ [wordRead z.toNat (zpByte s z) (Memory.read s.mem (z.toNat + 1))])))

/-! ### Memory and the event history -/

/-- What one event of the history did to the byte store (R53 to R55, R74). -/
def applyEvent (m : Memory) (ev : Event) : Memory :=
  match ev.op, ev.value with
  | .writeByte, some bytes | .writeWord, some bytes | .writeBytes, some bytes => Memory.writeSeq m ev.addr bytes
  | _, _ => m

/-- The byte store after the events, oldest first (R68). -/
def replay (evs : List Event) (m : Memory) : Memory := evs.foldl applyEvent m

/-- Memory `after` holds `bytes` at ascending addresses from `a`, and every other byte as `before`. -/
def Stored (before after : Memory) (a : Nat) (bytes : List Byte) : Prop :=
  (∀ n b, bytes[n]? = some b → Memory.read after (a + n) = b) ∧
  (∀ c, c < a ∨ a + bytes.length ≤ c → Memory.read after c = Memory.read before c)

/-- The penalty condition of each mode, from the entry state (R151). -/
def penaltyDue (m : Mode) (s : State) : Prop :=
  match m with
  | .absX => pageOf ((operand1 s ++ operand0 s) + zext16 s.x.value) ≠ operand1 s
  | .absY => pageOf ((operand1 s ++ operand0 s) + zext16 s.y.value) ≠ operand1 s
  | .indX => (operand0 s).toNat + s.x.value.toNat > 0xFF
  | .indY => operand0 s = 0xFF
  | .acc | .impl | .imm | .abs | .zp | .zpX | .zpY | .ind | .rel => False

/-- The cycle count a result carries, if it carries one (R100). -/
def cyclesOf : Result → Option Nat
  | .addr _ c | .implicit c => some c
  | .value _ | .done | .error _ => none

/-- Change the state of a next outcome, and keep a stop. -/
def mapNext (f : State → State) : Out → Out
  | .next s => .next (f s)
  | .fault r => .fault r
  | .refused r => .refused r

end Sys2Proof.Machine
end

