-- ==== Sys2Proof/Certificates/Slice0/Obligations.lean ====
section
/-! DEFINITION. The statements of this model for the provers. Each docstring names the rules of spec/ it formalises. -/

open Sys2Proof Sys2Proof.Machine

/-! ### Encoding -/

/-- Command words and `bop` codes written out bit by bit from R97 and R104 decode to the instructions they stand for,
and the code of each mode (R94) is its RESOLVE command. -/
def Obligations.DecodesSpecWords : Prop :=
  (∀ m, decode (.command ((modeCode m).setWidth 8) .none) = .ok (modeInstr m)) ∧
  decode (.command 0b00000101#8 .none) = .ok .resolveAbsX ∧
  decode (.command 0b00001101#8 .none) = .ok .resolveIllegal ∧
  decode (.command 0b00010000#8 .none) = .ok .reset ∧
  decode (.command 0b00100110#8 .none) = .ok .getImp ∧
  decode (.command 0b00110010#8 (.data 0x0042)) = .ok (.setA 0x0042) ∧
  decode (.command 0b01000111#8 .none) = .ok (.getFlag .N) ∧
  decode (.command 0b01010001#8 .none) = .ok (.hasFlag .Z) ∧
  decode (.command 0b01101110#8 .none) = .ok (.setFlag true .V) ∧
  decode (.command 0b01110001#8 (.addrData 0x0200 0xBEEF)) = .ok (.writeWord 0x0200 0xBEEF) ∧
  decode (.bus 3 0b011#3 (.addrWord 0x0200 0xBEEF)) = .ok (.busWriteWord 0x0200 0xBEEF) ∧
  decode (.bus 3 0b110#3 (.index 4096)) = .ok (.memIndexedRead 4096)

/-- R97, R98, R104: the transaction of every well-formed instruction, with every operand at every value and from every
master, decodes to it. -/
def Obligations.DecodeOfEncode : Prop :=
  ∀ (m : Nat) (i : Instr), WellFormed i → decode (encodeAs m i) = .ok i

/-- R97, R98, R104: each instruction has one spelling: what decodes is the transaction of the instruction it decodes to,
which is well-formed. That operands of another form than the class takes spell no instruction is the model's (log entry
8). -/
def Obligations.EncodeOfDecode : Prop :=
  ∀ (r : Request) (i : Instr), decode r = .ok i → WellFormed i ∧ ∃ m, r = encodeAs m i

/-- R99, R210: a word of R99's list spells no command with any operands, and every other word spells one with some; an
8-bit write with a wide operand spells none either. (Operands of another form than the class takes spell none too, which
is the model's choice, log entry 8, and no part of this statement.) A reserved command issued to a block without `FAULT`
sets the refusal mark and changes nothing else; that this is a next state, from which the machine goes on, is the model's
deduction (log entry 16). No step clears the mark, and a run with the mark has not ended well (R227), by the model's
`EndedWell` (log entry 21). -/
def Obligations.ReservedCommandRefused : Prop :=
  (∀ w ops, ReservedWord w → decode (.command w ops) = .error (.reservedWord w)) ∧
  (∀ w, ¬ ReservedWord w → ∃ ops i, decode (.command w ops) = .ok i) ∧
  (∀ w ops, ReservedCommand w ops → ∃ e, decode (.command w ops) = .error e) ∧
  (∀ s w ops rest, s.fault = none → s.inputs = .command w ops :: rest → ReservedCommand w ops →
    step s = .next { s with inputs := rest, refusalMark := true }) ∧
  (∀ s t, step s = .next t → s.refusalMark = true → t.refusalMark = true) ∧
  (∀ s, s.refusalMark = true → ¬ EndedWell s)

/-! ### The step -/

/-- R4, R70: a step performs the instruction the next transaction decodes to. The form of it is the model's: the
transactions stand in one list, of which a step takes the first whole (log entry 10), and the number of the other master
it comes from is kept in `requester`, which a command leaves as it was (log entry 12). -/
def Obligations.StepRunsDecodedInstruction : Prop :=
  ∀ s r rest i, s.inputs = r :: rest → decode r = .ok i →
    step s = exec i { s with
      inputs := rest
      requester := (match r with | .command _ _ => s.requester | .bus m _ _ => m) }

/-- With no transaction pending a step changes nothing (the model's choice, log entry 7; R2, R226). -/
def Obligations.StepIdleWithoutTransaction : Prop :=
  ∀ s, s.inputs = [] → step s = .next s

/-- R209: while `FAULT` is set no command is accepted, RESET included, whatever its word and operands; no step clears
`FAULT` or changes the error it holds; and a faulted state is not the end of a run that ended well. That there is no such
step the model says as the fault `blockFaulted` (log entry 5). -/
def Obligations.FaultedBlockTakesNoStep : Prop :=
  (∀ s e w ops rest, s.fault = some e → s.inputs = .command w ops :: rest → step s = .fault (.blockFaulted e)) ∧
  (∀ s e i, s.fault = some e → isDeviceOp i = false → exec i s = .fault (.blockFaulted e)) ∧
  (∀ s t e, step s = .next t → s.fault = some e → t.fault = some e) ∧
  (∀ s e, s.fault = some e → ¬ EndedWell s)

/-! ### The invariant, construction and reset -/

/-- The machine right after reset meets the invariant. -/
def Obligations.InvariantHoldsAtReset : Prop := MachineInv State.reset

/-- Every step keeps the invariant: the capacity is legal (R57), the byte store is in canonical form within the device
(R56), and the results fit `FAULT`: an error is returned at most once, and it is the last result (R35, R207, R209). -/
def Obligations.StepKeepsInvariant : Prop :=
  ∀ s t, MachineInv s → step s = .next t → MachineInv t

/-- R56, R220: a built machine meets the invariant, holds `MEM0`, has the parameters it was built with, every valid bit
clear and `FAULT` none; and every legal capacity with contents of its length builds one. -/
def Obligations.ConstructionMeetsInvariant : Prop :=
  (∀ cap mem0 z s, construct cap mem0 z = .ok s →
    MachineInv s ∧ s.params = ⟨cap.toNat, z⟩ ∧ (∀ n b, mem0[n]? = some b → Memory.read s.mem n = b) ∧
    s.pc.valid = false ∧ s.sp.valid = false ∧ s.a.valid = false ∧ s.x.valid = false ∧ s.y.valid = false ∧
    s.p.valid = false ∧ s.imp.valid = false ∧ s.fault = none) ∧
  (∀ (cap : Int) (mem0 : List Byte) z, 1 ≤ cap → cap ≤ 65536 → mem0.length = cap.toNat →
    ∃ s, construct cap mem0 z = .ok s)

/-- R57, R204: the default capacity is 65536; a capacity of zero or less or above 65536 builds no machine; no step
changes the capacity. -/
def Obligations.CapacityFixedAndLegal : Prop :=
  Params.default.cap = 65536 ∧
  (∀ (cap : Int) mem0 z, cap < 1 ∨ 65536 < cap → construct cap mem0 z = .error (.capacity cap)) ∧
  (∀ s t, step s = .next t → t.params.cap = s.params.cap)

/-- R221: RESET writes `PC`, `SP` and `P` whatever they held, and leaves everything else as it was; a faulted block
does not accept it (as `blockFaulted` says, log entry 5). -/
def Obligations.ResetCommand : Prop :=
  decode (.command 0x10 .none) = .ok .reset ∧
  (∀ s, s.fault = none → exec .reset s = .next { s with
    pc := ⟨0xFFFC, true⟩
    sp := ⟨0x00, true⟩
    p := ⟨0x00, true⟩
    results := s.results ++ [.done] }) ∧
  (∀ s e, s.fault = some e → exec .reset s = .fault (.blockFaulted e))

/-- 10_state.md section 9: the reset state is a machine just built with the default parameters after one RESET. The
zero bytes of `MEM0` and the empty histories are the model's choice (log entries 3, 6). -/
def Obligations.ResetStateIsBuiltThenReset : Prop :=
  ∃ s, construct 65536 (List.replicate 65536 0x00) true = .ok s ∧
    exec .reset s = .next { State.reset with results := [.done] }

/-! ### Accessors -/

/-- R120 to R126: each GET returns its register's value and changes nothing, or raises `Unwritten` of its register. After
RESET and SET_FLAG alone, GET_P is the flag's mask (R125); after ACC or IMPL with `A` invalid, GET_IMP raises (R126). -/
def Obligations.RegisterReads : Prop :=
  (decode (.command 0x20 .none) = .ok .getPc ∧ decode (.command 0x21 .none) = .ok .getSp ∧
    decode (.command 0x22 .none) = .ok .getA ∧ decode (.command 0x23 .none) = .ok .getX ∧
    decode (.command 0x24 .none) = .ok .getY ∧ decode (.command 0x25 .none) = .ok .getP ∧
    decode (.command 0x26 .none) = .ok .getImp) ∧
  ∀ s, s.fault = none →
    (s.pc.valid = false → FailsCleanly .getPc s (.unwritten .PC) []) ∧
    (s.pc.valid = true → exec .getPc s = .next (returned s (.value (.word s.pc.value)))) ∧
    ReadsByte .getSp .SP s.sp s ∧ ReadsByte .getA .A s.a s ∧ ReadsByte .getX .X s.x s ∧
    ReadsByte .getY .Y s.y s ∧ ReadsByte .getP .P s.p s ∧ ReadsByte .getImp .IMP s.imp s ∧
    (∀ f, ∃ t u, exec .reset s = .next t ∧ exec (.setFlag true f) t = .next u ∧
      exec .getP u = .next (returned u (.value (.byte (1#8 <<< (flagIndex f).toNat))))) ∧
    (s.a.valid = false → ∃ t, exec .resolveAcc s = .next t ∧ exec .resolveImpl s = .next t ∧
      FailsCleanly .getImp t (.unwritten .IMP) [])

/-- R127 to R133: each SET writes its register, makes it valid and changes nothing else; every 16-bit value is a value
of `PC`, every byte one of the others. -/
def Obligations.RegisterWrites : Prop :=
  ∀ s, s.fault = none → ∀ d : Word,
    decode (.command 0x30 (.data d)) = .ok (.setPc d) ∧
    exec (.setPc d) s = .next { s with pc := ⟨d, true⟩, results := s.results ++ [.done] } ∧
    (d.toNat < 256 →
      (decode (.command 0x31 (.data d)) = .ok (.setSp d) ∧
        exec (.setSp d) s = .next { s with sp := ⟨d.extractLsb' 0 8, true⟩, results := s.results ++ [.done] }) ∧
      (decode (.command 0x32 (.data d)) = .ok (.setA d) ∧
        exec (.setA d) s = .next { s with a := ⟨d.extractLsb' 0 8, true⟩, results := s.results ++ [.done] }) ∧
      (decode (.command 0x33 (.data d)) = .ok (.setX d) ∧
        exec (.setX d) s = .next { s with x := ⟨d.extractLsb' 0 8, true⟩, results := s.results ++ [.done] }) ∧
      (decode (.command 0x34 (.data d)) = .ok (.setY d) ∧
        exec (.setY d) s = .next { s with y := ⟨d.extractLsb' 0 8, true⟩, results := s.results ++ [.done] }) ∧
      (decode (.command 0x35 (.data d)) = .ok (.setP d) ∧
        exec (.setP d) s = .next { s with p := ⟨d.extractLsb' 0 8, true⟩, results := s.results ++ [.done] }) ∧
      (decode (.command 0x36 (.data d)) = .ok (.setImplicit d) ∧
        exec (.setImplicit d) s =
          .next { s with imp := ⟨d.extractLsb' 0 8, true⟩, results := s.results ++ [.done] }))

/-- R134, R135: GET_FLAG returns the byte 1 or 0 and HAS_FLAG a Boolean, both of bit `f` of `P`; both raise
`Unwritten` where `P` is invalid, and change nothing. -/
def Obligations.FlagReads : Prop :=
  ∀ f, decode (.command (0x40 + (flagIndex f).setWidth 8) .none) = .ok (.getFlag f) ∧
    decode (.command (0x50 + (flagIndex f).setWidth 8) .none) = .ok (.hasFlag f) ∧
    ∀ s, s.fault = none →
      (s.p.valid = false → FailsCleanly (.getFlag f) s (.unwritten .P) [] ∧
        FailsCleanly (.hasFlag f) s (.unwritten .P) []) ∧
      (s.p.valid = true →
        exec (.getFlag f) s = .next (returned s (.value (.byte (if s.p.value.getLsbD (flagIndex f).toNat then 1 else 0)))) ∧
        exec (.hasFlag f) s = .next (returned s (.value (.bool (s.p.value.getLsbD (flagIndex f).toNat)))))

/-- R136: SET_FLAG sets or clears flag `f` of a valid `P` and leaves the other seven bits and everything else as they
were; setting and then clearing keeps the other seven. -/
def Obligations.FlagWrites : Prop :=
  ∀ v f, decode (.command (0x60 + 8 * (BitVec.ofBool v).setWidth 8 + (flagIndex f).setWidth 8) .none)
      = .ok (.setFlag v f) ∧
    ∀ s, s.fault = none →
      (s.p.valid = false → FailsCleanly (.setFlag v f) s (.unwritten .P) []) ∧
      (s.p.valid = true → ∃ q : Byte,
        exec (.setFlag v f) s = .next { s with p := ⟨q, true⟩, results := s.results ++ [.done] } ∧
        q = (if v then s.p.value ||| (1#8 <<< (flagIndex f).toNat) else s.p.value &&& ~~~(1#8 <<< (flagIndex f).toNat)) ∧
        flagSet q f = v ∧ ∀ g, g ≠ f → flagSet q g = flagSet s.p.value g)

/-- R27, R28, R95: the eight flags are bits 0 to 7 of `P` in the order C Z I D B U V N, with mask `1 << f`, and the byte
holds nothing beside them. -/
def Obligations.StatusByteViews : Prop :=
  (∀ p : Byte, flagSet p .C = p.getLsbD 0 ∧ flagSet p .Z = p.getLsbD 1 ∧ flagSet p .I = p.getLsbD 2 ∧
    flagSet p .D = p.getLsbD 3 ∧ flagSet p .B = p.getLsbD 4 ∧ flagSet p .U = p.getLsbD 5 ∧
    flagSet p .V = p.getLsbD 6 ∧ flagSet p .N = p.getLsbD 7) ∧
  (∀ p q : Byte, (∀ f, flagSet p f = flagSet q f) → p = q) ∧
  (∀ f, flagMask f = 1#8 <<< (flagIndex f).toNat ∧ flagOfIndex (flagIndex f) = f) ∧
  [Flag.C, .Z, .I, .D, .B, .U, .V, .N].map flagIndex = [0, 1, 2, 3, 4, 5, 6, 7]

/-- R29: every byte written by SET_P is read back by GET_P as written, every bit written by SET_FLAG by GET_FLAG, and
the zero byte written by RESET by GET_P. -/
def Obligations.StatusBitsStoreWhatIsWritten : Prop :=
  (∀ s (b : Byte), s.fault = none → ∃ t u, exec (.setP (b.setWidth 16)) s = .next t ∧ exec .getP t = .next u ∧
    u.results = s.results ++ [.done, .value (.byte b)]) ∧
  (∀ s v f, s.fault = none → s.p.valid = true → ∃ t u, exec (.setFlag v f) s = .next t ∧
    exec (.getFlag f) t = .next u ∧ u.results = s.results ++ [.done, .value (.byte (if v then 1 else 0))]) ∧
  (∀ s, s.fault = none → ∃ t u, exec .reset s = .next t ∧ exec .getP t = .next u ∧
    u.results = s.results ++ [.done, .value (.byte 0x00)])

/-! ### Resolutions -/

/-- R153, R154: ACC and IMPL latch `A` with its validity, return one cycle and no address, and change nothing else, on
every state of the registers. -/
def Obligations.ResolveImplicitModes : Prop :=
  decode (.command 0x00 .none) = .ok .resolveAcc ∧ decode (.command 0x01 .none) = .ok .resolveImpl ∧
  ∀ s, s.fault = none →
    exec .resolveAcc s = .next { s with imp := s.a, results := s.results ++ [.implicit 1] } ∧
    exec .resolveImpl s = .next { s with imp := s.a, results := s.results ++ [.implicit 1] }

/-- R155: IMM returns the entry `PC`, advances it by one and reads nothing, whatever the capacity. -/
def Obligations.ResolveImmediate : Prop :=
  decode (.command 0x02 .none) = .ok .resolveImm ∧
  ∀ s, s.fault = none →
    (s.pc.valid = false → FailsWith .resolveImm s (.unwritten .PC) [] 0) ∧
    (s.pc.valid = true → exec .resolveImm s = .next (resolved s 1 [] (.addr s.pc.value 1)))

/-- R156: ABS returns the Word of the two operand bytes, low byte first, in 3 cycles. -/
def Obligations.ResolveAbsolute : Prop :=
  decode (.command 0x03 .none) = .ok .resolveAbs ∧
  ∀ s, s.fault = none → TwoOperands .resolveAbs s fun a evs =>
    exec .resolveAbs s = .next (resolved s 2 evs (.addr a 3))

/-- R157: ZP returns the operand byte as an Address of page 0, in 2 cycles. -/
def Obligations.ResolveZeroPage : Prop :=
  decode (.command 0x04 .none) = .ok .resolveZp ∧
  ∀ s, s.fault = none → OneOperand .resolveZp s fun b evs =>
    exec .resolveZp s = .next (resolved s 1 evs (.addr (b.setWidth 16) 2))

/-- R158: REL returns the operand byte sign-extended to 16 bits, in 1 cycle; the low byte of what it returns is the
operand byte. -/
def Obligations.ResolveRelative : Prop :=
  decode (.command 0x0C .none) = .ok .resolveRel ∧
  ∀ s, s.fault = none → OneOperand .resolveRel s fun b evs =>
    ∃ a : Word, exec .resolveRel s = .next (resolved s 1 evs (.addr a 1)) ∧
      a.toNat = (if b.toNat < 0x80 then b.toNat else b.toNat + 0xFF00) ∧
      a.toInt = b.toInt ∧ a.extractLsb' 0 8 = b

/-- R102, R160: the codes 13, 14 and 15 raise `IllegalMode` of their code, and read, write and issue nothing. -/
def Obligations.ResolveIllegalCodes : Prop :=
  decode (.command 0x0D .none) = .ok .resolveIllegal ∧
  decode (.command 0x0E .none) = .ok .resolveUnrecognized14 ∧
  decode (.command 0x0F .none) = .ok .resolveUnrecognized15 ∧
  ∀ s, s.fault = none →
    FailsCleanly .resolveIllegal s (.illegalMode 13) [] ∧
    FailsCleanly .resolveUnrecognized14 s (.illegalMode 14) [] ∧
    FailsCleanly .resolveUnrecognized15 s (.illegalMode 15) []

/-- R170, R171: ABS_X and ABS_Y return `(base + index) mod 65536` in 3 cycles, or 4 where the high byte changes; the
index register is read after the operand bytes. -/
def Obligations.ResolveAbsoluteIndexed : Prop :=
  decode (.command 0x05 .none) = .ok .resolveAbsX ∧ decode (.command 0x06 .none) = .ok .resolveAbsY ∧
  ∀ s, s.fault = none →
    (TwoOperands .resolveAbsX s fun base evs =>
      (s.x.valid = false → FailsWith .resolveAbsX s (.unwritten .X) evs 2) ∧
      (s.x.valid = true → exec .resolveAbsX s = .next (resolved s 2 evs
        (.addr (base + s.x.value.setWidth 16)
          (if pageOf (base + s.x.value.setWidth 16) = pageOf base then 3 else 4))))) ∧
    (TwoOperands .resolveAbsY s fun base evs =>
      (s.y.valid = false → FailsWith .resolveAbsY s (.unwritten .Y) evs 2) ∧
      (s.y.valid = true → exec .resolveAbsY s = .next (resolved s 2 evs
        (.addr (base + s.y.value.setWidth 16)
          (if pageOf (base + s.y.value.setWidth 16) = pageOf base then 3 else 4)))))

/-- R174: the absolute-indexed sum wraps at 16 bits; its high byte is the base's or the next one, and the penalty is
due exactly when the low bytes' sum exceeds `0xFF`. -/
def Obligations.PageCrossing : Prop :=
  ∀ (base : Word) (i : Byte),
    (indexAbs base i).toNat = (base.toNat + i.toNat) % 65536 ∧
    (pageOf (indexAbs base i) = pageOf base ∨ pageOf (indexAbs base i) = pageOf base + 1) ∧
    (crossesPage base (indexAbs base i) = true ↔ pageOf (indexAbs base i) ≠ pageOf base) ∧
    (crossesPage base (indexAbs base i) = true ↔ base.toNat % 256 + i.toNat > 0xFF)

/-- R172, R173, R175: ZP_X and ZP_Y return `(b + index) mod 256` in page 0, always in 2 cycles. -/
def Obligations.ResolveZeroPageIndexed : Prop :=
  decode (.command 0x07 .none) = .ok .resolveZpX ∧ decode (.command 0x08 .none) = .ok .resolveZpY ∧
  ∀ s, s.fault = none →
    (OneOperand .resolveZpX s fun b evs =>
      (s.x.valid = false → FailsWith .resolveZpX s (.unwritten .X) evs 1) ∧
      (s.x.valid = true → ∃ a : Word, a.toNat = (b.toNat + s.x.value.toNat) % 256 ∧
        exec .resolveZpX s = .next (resolved s 1 evs (.addr a 2)))) ∧
    (OneOperand .resolveZpY s fun b evs =>
      (s.y.valid = false → FailsWith .resolveZpY s (.unwritten .Y) evs 1) ∧
      (s.y.valid = true → ∃ a : Word, a.toNat = (b.toNat + s.y.value.toNat) % 256 ∧
        exec .resolveZpY s = .next (resolved s 1 evs (.addr a 2))))

/-- R180: IND returns the Word stored at the pointer, its high byte at `ptr + 1` without wrap, in 5 cycles; a pointer
of `0xFFFF` or whose second byte is outside the device raises `BusRange`. -/
def Obligations.ResolveIndirect : Prop :=
  decode (.command 0x09 .none) = .ok .resolveInd ∧
  ∀ s, s.fault = none → TwoOperands .resolveInd s fun ptr evs =>
    (s.params.cap ≤ ptr.toNat + 1 →
      FailsWith .resolveInd s (.busRange ptr.toNat 2 .read) (evs ++ [wordReadFailed ptr.toNat]) 2) ∧
    (ptr.toNat + 1 < s.params.cap →
      exec .resolveInd s = .next (resolved s 2
        (evs ++ [wordRead ptr.toNat (Memory.read s.mem ptr.toNat) (Memory.read s.mem (ptr.toNat + 1))])
        (.addr (Memory.read s.mem (ptr.toNat + 1) ++ Memory.read s.mem ptr.toNat) 5)))

/-- R181: the pointer at a zero-page location, for either value of `ZP_POINTER_WRAP`, with the bus reads it issues and
the errors it raises; the two values give different pointers only at `0xFF`. -/
def Obligations.ZeroPagePointer : Prop :=
  (∀ (s : State) (z : Byte), s.params.zpPointerWrap = true →
    (s.params.cap ≤ z.toNat → ∃ evs, eventsMatch evs [byteReadFailed z.toNat] ∧
      zpPointer z s = .err (.busRange z.toNat 1 .read) { s with events := s.events ++ evs }) ∧
    (z.toNat < s.params.cap → s.params.cap ≤ (z + 1).toNat → ∃ evs,
      eventsMatch evs [byteRead z.toNat (zpByte s z), byteReadFailed (z + 1).toNat] ∧
      zpPointer z s = .err (.busRange (z + 1).toNat 1 .read) { s with events := s.events ++ evs }) ∧
    (z.toNat < s.params.cap → (z + 1).toNat < s.params.cap → zpPointer z s = .ok (zpByte s (z + 1) ++ zpByte s z)
      { s with events := s.events ++
        [byteRead z.toNat (zpByte s z), byteRead (z + 1).toNat (zpByte s (z + 1))] })) ∧
  (∀ (s : State) (z : Byte), s.params.zpPointerWrap = false →
    (s.params.cap ≤ z.toNat + 1 → ∃ evs, eventsMatch evs [wordReadFailed z.toNat] ∧
      zpPointer z s = .err (.busRange z.toNat 2 .read) { s with events := s.events ++ evs }) ∧
    (z.toNat + 1 < s.params.cap → zpPointer z s = .ok (Memory.read s.mem (z.toNat + 1) ++ zpByte s z)
      { s with events := s.events ++ [wordRead z.toNat (zpByte s z) (Memory.read s.mem (z.toNat + 1))] })) ∧
  (∀ (s : State) (z : Byte), z ≠ 0xFF → z.toNat + 1 < s.params.cap → ∃ v t u,
    zpPointer z { s with params := ⟨s.params.cap, true⟩ } = .ok v t ∧
    zpPointer z { s with params := ⟨s.params.cap, false⟩ } = .ok v u)

/-- R181, R182: IND_X adds `X` to the operand byte within page 0, then reads the pointer there; 5 cycles, or 6 where
the addition exceeds `0xFF`. For both values of `ZP_POINTER_WRAP`. -/
def Obligations.ResolveIndexedIndirect : Prop :=
  decode (.command 0x0A .none) = .ok .resolveIndX ∧
  ∀ s, s.fault = none → OneOperand .resolveIndX s fun b evs =>
    (s.x.valid = false → FailsWith .resolveIndX s (.unwritten .X) evs 1) ∧
    (s.x.valid = true → PointerRead .resolveIndX s (b + s.x.value) evs 1 fun ea evs' =>
      exec .resolveIndX s = .next (resolved s 1 evs'
        (.addr ea (if b.toNat + s.x.value.toNat > 0xFF then 6 else 5))))

/-- R181, R183: IND_Y reads the pointer at the operand byte's zero-page location and adds `Y` with 16-bit wraparound;
5 cycles, or 6 where the operand byte is `0xFF`. For both values of `ZP_POINTER_WRAP`. -/
def Obligations.ResolveIndirectIndexed : Prop :=
  decode (.command 0x0B .none) = .ok .resolveIndY ∧
  ∀ s, s.fault = none → OneOperand .resolveIndY s fun z evs =>
    PointerRead .resolveIndY s z evs 1 fun base evs' =>
      (s.y.valid = false → FailsWith .resolveIndY s (.unwritten .Y) evs' 1) ∧
      (s.y.valid = true → ∃ ea : Word, ea.toNat = (base.toNat + s.y.value.toNat) % 65536 ∧
        exec .resolveIndY s = .next (resolved s 1 evs' (.addr ea (if z = 0xFF then 6 else 5))))

/-- R151, R226: the cycle count of every successful resolution is the mode's base count, plus one exactly where the
mode's penalty condition holds; no count comes with an error. -/
def Obligations.CycleCounts : Prop :=
  ∀ m s t, exec (modeInstr m) s = .next t →
    (t.fault = none → ∃ r c, t.results = s.results ++ [r] ∧ cyclesOf r = some c ∧
      ∀ base, base = (match m with
        | .acc | .impl | .imm | .rel => 1
        | .zp | .zpX | .zpY => 2
        | .abs | .absX | .absY => 3
        | .ind | .indX | .indY => 5) →
      (¬ penaltyDue m s → c = base) ∧ (penaltyDue m s → c = base + 1)) ∧
    (t.fault ≠ none → ∃ r, t.results = s.results ++ [r] ∧ cyclesOf r = none)

/-- R23, R24: a successful resolution advances `PC` by exactly the bytes its mode consumes, modulo 65536; the illegal
and unrecognized codes leave it. -/
def Obligations.PcAdvance : Prop :=
  (∀ m s t, exec (modeInstr m) s = .next t → t.fault = none →
    t.pc.value.toNat = (s.pc.value.toNat + (match m with
      | .acc | .impl => 0
      | .imm | .zp | .zpX | .zpY | .indX | .indY | .rel => 1
      | .abs | .absX | .absY | .ind => 2)) % 65536) ∧
  (∀ i s t, i = .resolveIllegal ∨ i = .resolveUnrecognized14 ∨ i = .resolveUnrecognized15 →
    exec i s = .next t → t.pc = s.pc)

/-- Every valid mode completes, without an error, on a device of the full address space with the registers it reads
valid and, for IND, a pointer other than `0xFFFF` (R150 to R183). -/
def Obligations.ResolutionsComplete : Prop :=
  ∀ m s, s.fault = none → s.params.cap = 65536 →
    (m ≠ .acc → m ≠ .impl → s.pc.valid = true) →
    (m = .absX ∨ m = .zpX ∨ m = .indX → s.x.valid = true) →
    (m = .absY ∨ m = .zpY ∨ m = .indY → s.y.valid = true) →
    (m = .ind → operand1 s ++ operand0 s ≠ 0xFFFF#16) →
    ∃ t, exec (modeInstr m) s = .next t ∧ t.fault = none

/-- R152: no resolution, successful or not, writes memory, `A`, `X`, `Y`, `SP` or `P`, and only ACC and IMPL write `IMP`;
beside `PC`, `IMP` and `FAULT` only the result, the bus reads and the model's draw counter are new. -/
def Obligations.ResolutionsKeepEverythingElse : Prop :=
  ∀ m s t, exec (modeInstr m) s = .next t →
    t = { s with pc := t.pc, imp := t.imp, fault := t.fault, results := t.results, events := t.events, draws := t.draws } ∧
    (m ≠ .acc → m ≠ .impl → t.imp = s.imp)

/-- R31, R152: what a resolution does depends on neither `P` nor `SP`: another status byte or stack pointer, valid or
not, changes nothing but itself. -/
def Obligations.ResolutionsIgnoreStatus : Prop :=
  ∀ m s (p sp : Reg 8),
    exec (modeInstr m) { s with p := p, sp := sp } =
      mapNext (fun t => { t with p := p, sp := sp }) (exec (modeInstr m) s)

/-! ### Pass-through writes -/

/-- R190: WRITE_BYTE stores `data[7:0]` at `addr`, or raises `BusRange` and stores nothing. -/
def Obligations.WriteByteCommand : Prop :=
  ∀ s (addr d : Word), s.fault = none → Memory.wf s.mem = true → d.toNat < 256 →
    decode (.command 0x70 (.addrData addr d)) = .ok (.writeByte addr d) ∧
    (s.params.cap ≤ addr.toNat → FailsCleanly (.writeByte addr d) s (.busRange addr.toNat 1 .write)
      [⟨.cpu, .writeByte, addr.toNat, 1, none⟩]) ∧
    (addr.toNat < s.params.cap → ∃ m, Stored s.mem m addr.toNat [d.extractLsb' 0 8] ∧
      exec (.writeByte addr d) s = .next { s with
        mem := m
        events := s.events ++ [⟨.cpu, .writeByte, addr.toNat, 1, some [d.extractLsb' 0 8]⟩]
        results := s.results ++ [.done] })

/-- R191: WRITE_WORD stores the low byte at `addr` and the high byte at `addr + 1`, without wrap, or raises `BusRange`
and stores nothing. -/
def Obligations.WriteWordCommand : Prop :=
  ∀ s (addr d : Word), s.fault = none → Memory.wf s.mem = true →
    decode (.command 0x71 (.addrData addr d)) = .ok (.writeWord addr d) ∧
    (s.params.cap ≤ addr.toNat + 1 → FailsCleanly (.writeWord addr d) s (.busRange addr.toNat 2 .write)
      [⟨.cpu, .writeWord, addr.toNat, 2, none⟩]) ∧
    (addr.toNat + 1 < s.params.cap →
      ∃ m, Stored s.mem m addr.toNat [d.extractLsb' 0 8, d.extractLsb' 8 8] ∧
      exec (.writeWord addr d) s = .next { s with
        mem := m
        events := s.events ++
          [⟨.cpu, .writeWord, addr.toNat, 2, some [d.extractLsb' 0 8, d.extractLsb' 8 8]⟩]
        results := s.results ++ [.done] })

/-- R192: WRITE_BYTES stores its bytes at ascending addresses, or raises `BusRange` of the whole sequence and stores
nothing; an empty sequence stores nothing and never fails. -/
def Obligations.WriteBytesCommand : Prop :=
  ∀ s (addr : Word) (seq : List Byte), s.fault = none → Memory.wf s.mem = true →
    decode (.command 0x72 (.addrSeq addr seq)) = .ok (.writeBytes addr seq) ∧
    (seq ≠ [] → s.params.cap ≤ addr.toNat + seq.length - 1 →
      FailsCleanly (.writeBytes addr seq) s (.busRange addr.toNat seq.length .write)
        [⟨.cpu, .writeBytes, addr.toNat, seq.length, none⟩]) ∧
    (seq = [] ∨ addr.toNat + seq.length - 1 < s.params.cap → ∃ m, Stored s.mem m addr.toNat seq ∧
      (seq = [] → m = s.mem) ∧
      exec (.writeBytes addr seq) s = .next { s with
        mem := m
        events := s.events ++ [⟨.cpu, .writeBytes, addr.toNat, seq.length, some seq⟩]
        results := s.results ++ [.done] })

/-- R193: a pass-through command changes no register and no valid bit, and issues exactly one bus operation, a write of
its own width at its own address, whether or not it fails. -/
def Obligations.PassThroughIssuesOneOperation : Prop :=
  ∀ s t (addr d : Word) (seq : List Byte),
    (d.toNat < 256 → exec (.writeByte addr d) s = .next t →
      t = { s with mem := t.mem, fault := t.fault, results := t.results, events := t.events } ∧
      ∃ v, t.events = s.events ++ [⟨.cpu, .writeByte, addr.toNat, 1, v⟩]) ∧
    (exec (.writeWord addr d) s = .next t →
      t = { s with mem := t.mem, fault := t.fault, results := t.results, events := t.events } ∧
      ∃ v, t.events = s.events ++ [⟨.cpu, .writeWord, addr.toNat, 2, v⟩]) ∧
    (exec (.writeBytes addr seq) s = .next t →
      t = { s with mem := t.mem, fault := t.fault, results := t.results, events := t.events } ∧
      ∃ v, t.events = s.events ++ [⟨.cpu, .writeBytes, addr.toNat, seq.length, v⟩])

/-! ### The bus device -/

/-- R51, R52: ReadByte and ReadWord by another master answer the stored byte or the little-endian Word, or `BusRange`,
and change nothing but the answers and the history. The number that names the master in an event (log entry 12), and
that its `BusRange` is answered to it, leaves `FAULT` alone and comes also while the block is faulted (log entry 19), are
the model's. -/
def Obligations.BusReads : Prop :=
  ∀ s (addr : Word),
    (s.params.cap ≤ addr.toNat → AnswersError (.busReadByte addr) s
      [⟨.other s.requester, .readByte, addr.toNat, 1, none⟩]
      (.busRange addr.toNat 1 .read)) ∧
    (addr.toNat < s.params.cap → Answers (.busReadByte addr) s
      [⟨.other s.requester, .readByte, addr.toNat, 1, some [Memory.read s.mem addr.toNat]⟩]
      (.byte (Memory.read s.mem addr.toNat))) ∧
    (s.params.cap ≤ addr.toNat + 1 → AnswersError (.busReadWord addr) s
      [⟨.other s.requester, .readWord, addr.toNat, 2, none⟩]
      (.busRange addr.toNat 2 .read)) ∧
    (addr.toNat + 1 < s.params.cap → ∃ w : Word,
      w.toNat = (Memory.read s.mem (addr.toNat + 1)).toNat * 256 + (Memory.read s.mem addr.toNat).toNat ∧
      Answers (.busReadWord addr) s
        [⟨.other s.requester, .readWord, addr.toNat, 2,
          some [Memory.read s.mem addr.toNat, Memory.read s.mem (addr.toNat + 1)]⟩] (.word w))

/-- R53, R54, R55: WriteByte, WriteWord and WriteBytes by another master store all their bytes, or answer `BusRange` and
store none; an empty sequence stores nothing and never fails. Everything else but the answer and the history stays. The
number that names the master in an event (log entry 12), and that its `BusRange` is answered to it, leaves `FAULT` alone
and comes also while the block is faulted (log entry 19), are the model's. -/
def Obligations.BusWrites : Prop :=
  ∀ s (addr w : Word) (v : Byte) (seq : List Byte), Memory.wf s.mem = true →
    (s.params.cap ≤ addr.toNat → AnswersError (.busWriteByte addr v) s
      [⟨.other s.requester, .writeByte, addr.toNat, 1, none⟩]
      (.busRange addr.toNat 1 .write)) ∧
    (addr.toNat < s.params.cap → ∃ m, Stored s.mem m addr.toNat [v] ∧
      exec (.busWriteByte addr v) s = .next { s with
        mem := m
        events := s.events ++ [⟨.other s.requester, .writeByte, addr.toNat, 1, some [v]⟩]
        replies := s.replies ++ [.done] }) ∧
    (s.params.cap ≤ addr.toNat + 1 → AnswersError (.busWriteWord addr w) s
      [⟨.other s.requester, .writeWord, addr.toNat, 2, none⟩]
      (.busRange addr.toNat 2 .write)) ∧
    (addr.toNat + 1 < s.params.cap → ∃ m, Stored s.mem m addr.toNat [w.extractLsb' 0 8, w.extractLsb' 8 8] ∧
      exec (.busWriteWord addr w) s = .next { s with
        mem := m
        events := s.events ++ [⟨.other s.requester, .writeWord, addr.toNat, 2,
          some [w.extractLsb' 0 8, w.extractLsb' 8 8]⟩]
        replies := s.replies ++ [.done] }) ∧
    (seq ≠ [] → s.params.cap ≤ addr.toNat + seq.length - 1 → AnswersError (.busWriteBytes addr seq) s
      [⟨.other s.requester, .writeBytes, addr.toNat, seq.length, none⟩]
      (.busRange addr.toNat seq.length .write)) ∧
    (seq = [] ∨ addr.toNat + seq.length - 1 < s.params.cap → ∃ m, Stored s.mem m addr.toNat seq ∧
      (seq = [] → m = s.mem) ∧
      exec (.busWriteBytes addr seq) s = .next { s with
        mem := m
        events := s.events ++ [⟨.other s.requester, .writeBytes, addr.toNat, seq.length, some seq⟩]
        replies := s.replies ++ [.done] })

/-- R58: Clear fills every byte of the device with `value`, and nothing else but the answer changes; no command of the
block is a Clear. That it leaves no event (log entry 11), and that it is answered to the master that issues it, also while
the block is faulted (log entry 19), are the model's. -/
def Obligations.DeviceClear : Prop :=
  (∀ s (v : Byte), ∃ m, (∀ a, a < s.params.cap → Memory.read m a = v) ∧
    exec (.memClear v) s = .next { s with mem := m, replies := s.replies ++ [.done] }) ∧
  (∀ w ops v, decode (.command w ops) ≠ .ok (.memClear v))

/-- R59, R60: the indexed access reads or stores byte `i`, or answers `BusRange(i, 1, ·)` at or above the capacity, for
every index; nothing else but the answer changes; no command of the block is an indexed access. That the
index is any natural number (log entry 14), that the access leaves no event (log entry 11), and that its answer, an error
too, goes to the master that issues it, leaves `FAULT` alone and comes also while the block is faulted (log entry 19), are
the model's. -/
def Obligations.DeviceIndexedAccess : Prop :=
  (∀ w ops (i : Nat) (v : Byte),
    decode (.command w ops) ≠ .ok (.memIndexedRead i) ∧ decode (.command w ops) ≠ .ok (.memIndexedWrite i v)) ∧
  ∀ s (i : Nat) (v : Byte),
    (s.params.cap ≤ i → AnswersError (.memIndexedRead i) s [] (.busRange i 1 .read) ∧
      AnswersError (.memIndexedWrite i v) s [] (.busRange i 1 .write)) ∧
    (i < s.params.cap → Answers (.memIndexedRead i) s [] (.byte (Memory.read s.mem i))) ∧
    (i < s.params.cap → Memory.wf s.mem = true → ∃ m, Stored s.mem m i [v] ∧
      exec (.memIndexedWrite i v) s = .next { s with mem := m, replies := s.replies ++ [.done] })

/-- R61: a Word written by WriteWord has its low byte at the lower address: two ReadBytes and one ReadWord see it so.
That the answers go to the issuing master, also while the block is faulted, is the model's (log entry 19). -/
def Obligations.LittleEndianWords : Prop :=
  ∀ s (addr w : Word), Memory.wf s.mem = true → s.params.cap ≤ 65536 → addr.toNat + 1 < s.params.cap →
    ∃ t u v x, exec (.busWriteWord addr w) s = .next t ∧
      exec (.busReadByte addr) t = .next u ∧ u.replies = s.replies ++ [.done, .byte (w.extractLsb' 0 8)] ∧
      exec (.busReadByte (addr + 1)) t = .next v ∧ v.replies = s.replies ++ [.done, .byte (w.extractLsb' 8 8)] ∧
      exec (.busReadWord addr) t = .next x ∧ x.replies = s.replies ++ [.done, .word w]

/-- R64: a read changes neither memory nor a register, and an identical read after it answers the same.
How another master's read is answered is the model's (log entry 19). -/
def Obligations.ReadsHaveNoSideEffect : Prop :=
  ∀ i s t, (∃ a, i = .busReadByte a) ∨ (∃ a, i = .busReadWord a) ∨ (∃ n, i = .memIndexedRead n) →
    exec i s = .next t →
    t = { s with events := t.events, replies := t.replies } ∧
    ∃ r u, t.replies = s.replies ++ [r] ∧ exec i t = .next u ∧ u.replies = s.replies ++ [r, r]

/-- R68, R74: the event history explains memory: the new events of a step, applied in their order to the byte store
before it, give the byte store after it; only Clear and the indexed write, which are outside the bus contract (R58,
R60), are excepted. What the history shows of a failed operation and of those two is the model's (log entry 11). -/
def Obligations.HistoryExplainsMemory : Prop :=
  ∀ s t, step s = .next t →
    (∀ r rest i, s.inputs = r :: rest → decode r = .ok i → isOutsideBus i = false) →
    ∃ evs, t.events = s.events ++ evs ∧ t.mem = replay evs s.mem

/-- R70, R75: all bus operations of one step come from the master of its transaction, the block for a command; one of
another master issues at most one. The number that names another master is the model's (log entry 12), and so is that a
diagnostic access leaves no event (log entry 11). -/
def Obligations.StepIssuesOneMastersOperations : Prop :=
  ∀ s t r rest, s.inputs = r :: rest → step s = .next t →
    ∃ evs, t.events = s.events ++ evs ∧
      (∀ ev ∈ evs, ev.master = (match r with | .command _ _ => .cpu | .bus m _ _ => .other m)) ∧
      (∀ m bop ops, r = .bus m bop ops → evs.length ≤ 1)

/-- R70, R214: an operation another master issues changes no register, flag, valid bit or result of the block. That it
sets no `FAULT` either, its own `BusRange` being answered to that master alone, is the model's deduction (log entry
19). -/
def Obligations.OtherMastersLeaveTheBlock : Prop :=
  ∀ i s t, isDeviceOp i = true → exec i s = .next t →
    t = { s with mem := t.mem, events := t.events, replies := t.replies }

/-- R50 to R60, R69: every operation another master issues completes, with exactly one answer. That it completes
whatever the state of the block, also while `FAULT` is set, and is answered to that master, is the model's deduction (log
entry 19). -/
def Obligations.DeviceOperationsComplete : Prop :=
  ∀ i s, isDeviceOp i = true → ∃ t r, exec i s = .next t ∧ t.replies = s.replies ++ [r]

/-! ### Results, errors and whole-machine rules -/

/-- R100: every accepted command returns exactly one result, of the form the rule gives the command or an error, and no
answer to another master; an operation of another master returns none on the command port. -/
def Obligations.OneResultPerCommand : Prop :=
  ∀ i s t, WellFormed i → exec i s = .next t →
    (isDeviceOp i = false →
      (∃ r, t.results = s.results ++ [r] ∧ (FitsForm i r ∨ isError r = true)) ∧ t.replies = s.replies) ∧
    (isDeviceOp i = true → t.results = s.results)

/-- R207, R208: a command that returns an error has set `FAULT` to it; one that ends with `FAULT` set has returned that
error and changed no register, valid bit or memory but `PC`, which only a resolution of a valid mode moves, to a value
its increments had reached: it increments once for each operand byte it read. That an operation that failed is one whose
event holds no bytes is the model's (log entry 11). -/
def Obligations.ErrorLeavesStateButPc : Prop :=
  (∀ i s t e, isDeviceOp i = false → exec i s = .next t → t.fault = some e →
    s.fault = none ∧ t.results = s.results ++ [.error e] ∧
    t = { s with pc := t.pc, fault := t.fault, results := t.results, events := t.events, draws := t.draws } ∧
    (t.pc = s.pc ∨ ∃ m n evs, i = modeInstr m ∧ t.events = s.events ++ evs ∧
      n ≤ pcBytes m ∧ n ≤ (evs.filter fun ev => ev.value.isSome).length ∧
      t.pc = ⟨s.pc.value + BitVec.ofNat 16 n, s.pc.valid⟩)) ∧
  (∀ i s t e, exec i s = .next t → t.results = s.results ++ [.error e] → t.fault = some e)

/-- R20, R26, R30, R32, R33, R56: each register, and memory, is written only by the operations its row of R20's table
names. -/
def Obligations.StateWrittenOnlyByItsOperations : Prop :=
  ∀ i s t, exec i s = .next t →
    (t.pc ≠ s.pc → (∃ m, i = modeInstr m ∧ m ≠ .acc ∧ m ≠ .impl) ∨ (∃ d, i = .setPc d) ∨ i = .reset) ∧
    (t.sp ≠ s.sp → (∃ d, i = .setSp d) ∨ i = .reset) ∧
    (t.a ≠ s.a → ∃ d, i = .setA d) ∧
    (t.x ≠ s.x → ∃ d, i = .setX d) ∧
    (t.y ≠ s.y → ∃ d, i = .setY d) ∧
    (t.p ≠ s.p → (∃ d, i = .setP d) ∨ (∃ v f, i = .setFlag v f) ∨ i = .reset) ∧
    (t.imp ≠ s.imp → i = .resolveAcc ∨ i = .resolveImpl ∨ ∃ d, i = .setImplicit d) ∧
    (t.mem ≠ s.mem → (∃ a d, i = .writeByte a d) ∨ (∃ a d, i = .writeWord a d) ∨ (∃ a l, i = .writeBytes a l) ∨
      (∃ a v, i = .busWriteByte a v) ∨ (∃ a w, i = .busWriteWord a w) ∨ (∃ a l, i = .busWriteBytes a l) ∨
      (∃ v, i = .memClear v) ∨ (∃ n v, i = .memIndexedWrite n v))

/-- R36: once a register holds a defined value it holds one after every step, but for `IMP`, which takes the validity
of `A` (R38). -/
def Obligations.ValidBitsNeverCleared : Prop :=
  ∀ s t, step s = .next t →
    (s.pc.valid = true → t.pc.valid = true) ∧ (s.sp.valid = true → t.sp.valid = true) ∧
    (s.a.valid = true → t.a.valid = true) ∧ (s.x.valid = true → t.x.valid = true) ∧
    (s.y.valid = true → t.y.valid = true) ∧ (s.p.valid = true → t.p.valid = true) ∧
    (s.imp.valid = true → s.a.valid = true → t.imp.valid = true)

/-- R72, R225: what is stored to the instruction stream, by a write of the block or by any operation of another master,
is what a resolution that comes after it reads. Whichever instruction stores, and however many bytes: a stored byte that
lies at `PC` is the first operand byte, which every mode that reads operand bytes reads as its first access, and one that
lies at `(PC + 1) mod 65536` is the second, which every mode of two operand bytes reads as its second. The value a mode
makes of its operand bytes is in the statement of the mode; for RESOLVE(ZP) after a byte write it is repeated here. -/
def Obligations.WritesSeenByResolution : Prop :=
  ∀ s, s.fault = none → Memory.wf s.mem = true → s.pc.valid = true → s.pc.value.toNat < s.params.cap →
    (∀ i a bytes, WellFormed i → bytesStored s.params.cap i = some (a, bytes) → a + bytes.length ≤ s.params.cap →
      ∃ t, exec i s = .next t ∧ ∀ n b, bytes[n]? = some b →
        (a + n = s.pc.value.toNat → operand0 t = b ∧ ∀ m, readsOperand m = true → ∃ u evs,
          exec (modeInstr m) t = .next u ∧ u.events = t.events ++ byteRead s.pc.value.toNat b :: evs) ∧
        (a + n = (s.pc.value + 1).toNat → operand1 t = b ∧ ∀ m, pcBytes m = 2 → ∃ u evs,
          exec (modeInstr m) t = .next u ∧ u.events = t.events ++
            byteRead s.pc.value.toNat (operand0 t) :: byteRead (s.pc.value + 1).toNat b :: evs)) ∧
    (∀ b : Byte,
      (∃ t u, exec (.writeByte s.pc.value (b.setWidth 16)) s = .next t ∧ exec .resolveZp t = .next u ∧
        u.results = s.results ++ [.done, .addr (b.setWidth 16) 2]) ∧
      (∃ t u, exec (.busWriteByte s.pc.value b) s = .next t ∧ exec .resolveZp t = .next u ∧
        u.results = s.results ++ [.addr (b.setWidth 16) 2]))

/-! ### Addresses -/

/-- R5: the flat value and the page and offset are two views of one Address. -/
def Obligations.AddressViews : Prop :=
  (∀ p o : Byte, (fromPageOffset p o).toNat = p.toNat * 256 + o.toNat ∧
    pageOf (fromPageOffset p o) = p ∧ offsetOf (fromPageOffset p o) = o) ∧
  (∀ v : Word, v.toNat = (pageOf v).toNat * 256 + (offsetOf v).toNat ∧ fromPageOffset (pageOf v) (offsetOf v) = v)

/-- R92: how each kind of operand field becomes a Word. -/
def Obligations.OperandAssembly : Prop :=
  (∀ b0 b1 : Byte, (fromPageOffset b1 b0).toNat = b1.toNat * 256 + b0.toNat) ∧
  (∀ b : Byte, (zpAddress b).toNat = b.toNat ∧ zpAddress b = zext16 b) ∧
  (∀ b i : Byte, (indexZp b i).toNat = (b.toNat + i.toNat) % 256 ∧ pageOf (zpAddress (indexZp b i)) = 0x00) ∧
  (∀ (base : Word) (i : Byte), (indexAbs base i).toNat = (base.toNat + i.toNat) % 65536) ∧
  (∀ b : Byte, (sext16 b).toInt = b.toInt)

/-- R6: an Address is displayed as the four hexadecimal digits of its value, uppercase, zero-padded. -/
def Obligations.AddressDisplay : Prop :=
  displayAddress 0x01FF = ['0', '1', 'F', 'F'] ∧
  ∀ v : Word, ∃ a b c d, a < 16 ∧ b < 16 ∧ c < 16 ∧ d < 16 ∧ v.toNat = ((a * 16 + b) * 16 + c) * 16 + d ∧
    (displayAddress v).map some = [a, b, c, d].map fun n => "0123456789ABCDEF".toList[n]?

/-- R96, R101: the codes of the three errors and of the register an `Unwritten` records. -/
def Obligations.ErrorCodes : Prop :=
  (∀ a n dir, errorCode (.busRange a n dir) = 1) ∧ (∀ m, errorCode (.illegalMode m) = 2) ∧
  (∀ r, errorCode (.unwritten r) = 3) ∧
  [RegSel.PC, .SP, .A, .X, .Y, .P, .IMP].map regCode = [0, 1, 2, 3, 4, 5, 6]
end

