-- ==== Sys2Proof/Laws/Address.lean ====
section
/-! SUPPORT. The numbers behind the address and operand functions. -/

namespace Sys2Proof.Machine

theorem fromPageOffset_toNat (page offset : Byte) :
    (fromPageOffset page offset).toNat = page.toNat * 256 + offset.toNat := by
  have := offset.isLt
  rw [fromPageOffset, BitVec.toNat_append, ← Nat.shiftLeft_add_eq_or_of_lt (by omega), Nat.shiftLeft_eq]

theorem pageOf_toNat (v : Word) : (pageOf v).toNat = v.toNat / 256 := by
  simp only [pageOf, BitVec.extractLsb'_toNat, Nat.shiftRight_eq_div_pow]
  have := v.isLt
  omega

theorem offsetOf_toNat (v : Word) : (offsetOf v).toNat = v.toNat % 256 := by
  simp [offsetOf, BitVec.extractLsb'_toNat]

theorem zext16_toNat (b : Byte) : (zext16 b).toNat = b.toNat := by
  simp only [zext16, BitVec.toNat_setWidth]
  have := b.isLt
  omega

theorem pageOf_fromPageOffset (page offset : Byte) : pageOf (fromPageOffset page offset) = page := by
  apply BitVec.eq_of_toNat_eq
  rw [pageOf_toNat, fromPageOffset_toNat]
  have := offset.isLt
  omega

theorem offsetOf_fromPageOffset (page offset : Byte) : offsetOf (fromPageOffset page offset) = offset := by
  apply BitVec.eq_of_toNat_eq
  rw [offsetOf_toNat, fromPageOffset_toNat]
  have := offset.isLt
  omega

end Sys2Proof.Machine
end

