-- ==== Sys2Proof/Laws/State.lean ====
section
/-! SUPPORT. One lemma per field per update of the state, all true by definition, so that no proof unfolds a record
update. -/

namespace Sys2Proof.Machine

/-! ### `respond` -/

@[simp] theorem respond_pc (r : Result) (s : State) : (respond r s).pc = s.pc := rfl
@[simp] theorem respond_sp (r : Result) (s : State) : (respond r s).sp = s.sp := rfl
@[simp] theorem respond_a (r : Result) (s : State) : (respond r s).a = s.a := rfl
@[simp] theorem respond_x (r : Result) (s : State) : (respond r s).x = s.x := rfl
@[simp] theorem respond_y (r : Result) (s : State) : (respond r s).y = s.y := rfl
@[simp] theorem respond_p (r : Result) (s : State) : (respond r s).p = s.p := rfl
@[simp] theorem respond_imp (r : Result) (s : State) : (respond r s).imp = s.imp := rfl
@[simp] theorem respond_fault (r : Result) (s : State) : (respond r s).fault = s.fault := rfl
@[simp] theorem respond_refusalMark (r : Result) (s : State) : (respond r s).refusalMark = s.refusalMark := rfl
@[simp] theorem respond_params (r : Result) (s : State) : (respond r s).params = s.params := rfl
@[simp] theorem respond_mem (r : Result) (s : State) : (respond r s).mem = s.mem := rfl
@[simp] theorem respond_requester (r : Result) (s : State) : (respond r s).requester = s.requester := rfl
@[simp] theorem respond_inputs (r : Result) (s : State) : (respond r s).inputs = s.inputs := rfl
@[simp] theorem respond_results (r : Result) (s : State) : (respond r s).results = s.results ++ [r] := rfl
@[simp] theorem respond_replies (r : Result) (s : State) : (respond r s).replies = s.replies := rfl
@[simp] theorem respond_events (r : Result) (s : State) : (respond r s).events = s.events := rfl
@[simp] theorem respond_draws (r : Result) (s : State) : (respond r s).draws = s.draws := rfl

/-! ### `reply` -/

@[simp] theorem reply_pc (r : BusReply) (s : State) : (reply r s).pc = s.pc := rfl
@[simp] theorem reply_sp (r : BusReply) (s : State) : (reply r s).sp = s.sp := rfl
@[simp] theorem reply_a (r : BusReply) (s : State) : (reply r s).a = s.a := rfl
@[simp] theorem reply_x (r : BusReply) (s : State) : (reply r s).x = s.x := rfl
@[simp] theorem reply_y (r : BusReply) (s : State) : (reply r s).y = s.y := rfl
@[simp] theorem reply_p (r : BusReply) (s : State) : (reply r s).p = s.p := rfl
@[simp] theorem reply_imp (r : BusReply) (s : State) : (reply r s).imp = s.imp := rfl
@[simp] theorem reply_fault (r : BusReply) (s : State) : (reply r s).fault = s.fault := rfl
@[simp] theorem reply_refusalMark (r : BusReply) (s : State) : (reply r s).refusalMark = s.refusalMark := rfl
@[simp] theorem reply_params (r : BusReply) (s : State) : (reply r s).params = s.params := rfl
@[simp] theorem reply_mem (r : BusReply) (s : State) : (reply r s).mem = s.mem := rfl
@[simp] theorem reply_requester (r : BusReply) (s : State) : (reply r s).requester = s.requester := rfl
@[simp] theorem reply_inputs (r : BusReply) (s : State) : (reply r s).inputs = s.inputs := rfl
@[simp] theorem reply_results (r : BusReply) (s : State) : (reply r s).results = s.results := rfl
@[simp] theorem reply_replies (r : BusReply) (s : State) : (reply r s).replies = s.replies ++ [r] := rfl
@[simp] theorem reply_events (r : BusReply) (s : State) : (reply r s).events = s.events := rfl
@[simp] theorem reply_draws (r : BusReply) (s : State) : (reply r s).draws = s.draws := rfl

/-! ### `takeError` -/

@[simp] theorem takeError_pc (e : ErrorRecord) (s : State) : (takeError e s).pc = s.pc := rfl
@[simp] theorem takeError_sp (e : ErrorRecord) (s : State) : (takeError e s).sp = s.sp := rfl
@[simp] theorem takeError_a (e : ErrorRecord) (s : State) : (takeError e s).a = s.a := rfl
@[simp] theorem takeError_x (e : ErrorRecord) (s : State) : (takeError e s).x = s.x := rfl
@[simp] theorem takeError_y (e : ErrorRecord) (s : State) : (takeError e s).y = s.y := rfl
@[simp] theorem takeError_p (e : ErrorRecord) (s : State) : (takeError e s).p = s.p := rfl
@[simp] theorem takeError_imp (e : ErrorRecord) (s : State) : (takeError e s).imp = s.imp := rfl
@[simp] theorem takeError_fault (e : ErrorRecord) (s : State) : (takeError e s).fault = some e := rfl
@[simp] theorem takeError_refusalMark (e : ErrorRecord) (s : State) : (takeError e s).refusalMark = s.refusalMark := rfl
@[simp] theorem takeError_params (e : ErrorRecord) (s : State) : (takeError e s).params = s.params := rfl
@[simp] theorem takeError_mem (e : ErrorRecord) (s : State) : (takeError e s).mem = s.mem := rfl
@[simp] theorem takeError_requester (e : ErrorRecord) (s : State) : (takeError e s).requester = s.requester := rfl
@[simp] theorem takeError_inputs (e : ErrorRecord) (s : State) : (takeError e s).inputs = s.inputs := rfl
@[simp] theorem takeError_results (e : ErrorRecord) (s : State) : (takeError e s).results = s.results ++ [.error e] := rfl
@[simp] theorem takeError_replies (e : ErrorRecord) (s : State) : (takeError e s).replies = s.replies := rfl
@[simp] theorem takeError_events (e : ErrorRecord) (s : State) : (takeError e s).events = s.events := rfl
@[simp] theorem takeError_draws (e : ErrorRecord) (s : State) : (takeError e s).draws = s.draws := rfl

/-! ### `recordEvent` -/

@[simp] theorem recordEvent_pc (m : Master) (op : BusOp) (n w : Nat) (v : Option (List Byte)) (s : State) : (recordEvent m op n w v s).pc = s.pc := rfl
@[simp] theorem recordEvent_sp (m : Master) (op : BusOp) (n w : Nat) (v : Option (List Byte)) (s : State) : (recordEvent m op n w v s).sp = s.sp := rfl
@[simp] theorem recordEvent_a (m : Master) (op : BusOp) (n w : Nat) (v : Option (List Byte)) (s : State) : (recordEvent m op n w v s).a = s.a := rfl
@[simp] theorem recordEvent_x (m : Master) (op : BusOp) (n w : Nat) (v : Option (List Byte)) (s : State) : (recordEvent m op n w v s).x = s.x := rfl
@[simp] theorem recordEvent_y (m : Master) (op : BusOp) (n w : Nat) (v : Option (List Byte)) (s : State) : (recordEvent m op n w v s).y = s.y := rfl
@[simp] theorem recordEvent_p (m : Master) (op : BusOp) (n w : Nat) (v : Option (List Byte)) (s : State) : (recordEvent m op n w v s).p = s.p := rfl
@[simp] theorem recordEvent_imp (m : Master) (op : BusOp) (n w : Nat) (v : Option (List Byte)) (s : State) : (recordEvent m op n w v s).imp = s.imp := rfl
@[simp] theorem recordEvent_fault (m : Master) (op : BusOp) (n w : Nat) (v : Option (List Byte)) (s : State) : (recordEvent m op n w v s).fault = s.fault := rfl
@[simp] theorem recordEvent_refusalMark (m : Master) (op : BusOp) (n w : Nat) (v : Option (List Byte)) (s : State) : (recordEvent m op n w v s).refusalMark = s.refusalMark := rfl
@[simp] theorem recordEvent_params (m : Master) (op : BusOp) (n w : Nat) (v : Option (List Byte)) (s : State) : (recordEvent m op n w v s).params = s.params := rfl
@[simp] theorem recordEvent_mem (m : Master) (op : BusOp) (n w : Nat) (v : Option (List Byte)) (s : State) : (recordEvent m op n w v s).mem = s.mem := rfl
@[simp] theorem recordEvent_requester (m : Master) (op : BusOp) (n w : Nat) (v : Option (List Byte)) (s : State) : (recordEvent m op n w v s).requester = s.requester := rfl
@[simp] theorem recordEvent_inputs (m : Master) (op : BusOp) (n w : Nat) (v : Option (List Byte)) (s : State) : (recordEvent m op n w v s).inputs = s.inputs := rfl
@[simp] theorem recordEvent_results (m : Master) (op : BusOp) (n w : Nat) (v : Option (List Byte)) (s : State) : (recordEvent m op n w v s).results = s.results := rfl
@[simp] theorem recordEvent_replies (m : Master) (op : BusOp) (n w : Nat) (v : Option (List Byte)) (s : State) : (recordEvent m op n w v s).replies = s.replies := rfl
@[simp] theorem recordEvent_events (m : Master) (op : BusOp) (n w : Nat) (v : Option (List Byte)) (s : State) : (recordEvent m op n w v s).events = s.events ++ [⟨m, op, n, w, v⟩] := rfl
@[simp] theorem recordEvent_draws (m : Master) (op : BusOp) (n w : Nat) (v : Option (List Byte)) (s : State) : (recordEvent m op n w v s).draws = s.draws := rfl

/-! ### `incPc` -/

@[simp] theorem incPc_pc (s : State) : (incPc s).pc = ⟨s.pc.value + 1, true⟩ := rfl
@[simp] theorem incPc_sp (s : State) : (incPc s).sp = s.sp := rfl
@[simp] theorem incPc_a (s : State) : (incPc s).a = s.a := rfl
@[simp] theorem incPc_x (s : State) : (incPc s).x = s.x := rfl
@[simp] theorem incPc_y (s : State) : (incPc s).y = s.y := rfl
@[simp] theorem incPc_p (s : State) : (incPc s).p = s.p := rfl
@[simp] theorem incPc_imp (s : State) : (incPc s).imp = s.imp := rfl
@[simp] theorem incPc_fault (s : State) : (incPc s).fault = s.fault := rfl
@[simp] theorem incPc_refusalMark (s : State) : (incPc s).refusalMark = s.refusalMark := rfl
@[simp] theorem incPc_params (s : State) : (incPc s).params = s.params := rfl
@[simp] theorem incPc_mem (s : State) : (incPc s).mem = s.mem := rfl
@[simp] theorem incPc_requester (s : State) : (incPc s).requester = s.requester := rfl
@[simp] theorem incPc_inputs (s : State) : (incPc s).inputs = s.inputs := rfl
@[simp] theorem incPc_results (s : State) : (incPc s).results = s.results := rfl
@[simp] theorem incPc_replies (s : State) : (incPc s).replies = s.replies := rfl
@[simp] theorem incPc_events (s : State) : (incPc s).events = s.events := rfl
@[simp] theorem incPc_draws (s : State) : (incPc s).draws = s.draws := rfl

/-! ### `forgetPc` -/

@[simp] theorem forgetPc_sp (s₀ s : State) : (forgetPc s₀ s).sp = s.sp := rfl
@[simp] theorem forgetPc_a (s₀ s : State) : (forgetPc s₀ s).a = s.a := rfl
@[simp] theorem forgetPc_x (s₀ s : State) : (forgetPc s₀ s).x = s.x := rfl
@[simp] theorem forgetPc_y (s₀ s : State) : (forgetPc s₀ s).y = s.y := rfl
@[simp] theorem forgetPc_p (s₀ s : State) : (forgetPc s₀ s).p = s.p := rfl
@[simp] theorem forgetPc_imp (s₀ s : State) : (forgetPc s₀ s).imp = s.imp := rfl
@[simp] theorem forgetPc_fault (s₀ s : State) : (forgetPc s₀ s).fault = s.fault := rfl
@[simp] theorem forgetPc_refusalMark (s₀ s : State) : (forgetPc s₀ s).refusalMark = s.refusalMark := rfl
@[simp] theorem forgetPc_params (s₀ s : State) : (forgetPc s₀ s).params = s.params := rfl
@[simp] theorem forgetPc_mem (s₀ s : State) : (forgetPc s₀ s).mem = s.mem := rfl
@[simp] theorem forgetPc_requester (s₀ s : State) : (forgetPc s₀ s).requester = s.requester := rfl
@[simp] theorem forgetPc_inputs (s₀ s : State) : (forgetPc s₀ s).inputs = s.inputs := rfl
@[simp] theorem forgetPc_results (s₀ s : State) : (forgetPc s₀ s).results = s.results := rfl
@[simp] theorem forgetPc_replies (s₀ s : State) : (forgetPc s₀ s).replies = s.replies := rfl
@[simp] theorem forgetPc_events (s₀ s : State) : (forgetPc s₀ s).events = s.events := rfl
@[simp] theorem forgetPc_draws (s₀ s : State) : (forgetPc s₀ s).draws = s.draws + 1 := rfl

/-! ### `takeRequest` -/

@[simp] theorem takeRequest_pc (r : Request) (rest : List Request) (s : State) : (takeRequest r rest s).pc = s.pc := rfl
@[simp] theorem takeRequest_sp (r : Request) (rest : List Request) (s : State) : (takeRequest r rest s).sp = s.sp := rfl
@[simp] theorem takeRequest_a (r : Request) (rest : List Request) (s : State) : (takeRequest r rest s).a = s.a := rfl
@[simp] theorem takeRequest_x (r : Request) (rest : List Request) (s : State) : (takeRequest r rest s).x = s.x := rfl
@[simp] theorem takeRequest_y (r : Request) (rest : List Request) (s : State) : (takeRequest r rest s).y = s.y := rfl
@[simp] theorem takeRequest_p (r : Request) (rest : List Request) (s : State) : (takeRequest r rest s).p = s.p := rfl
@[simp] theorem takeRequest_imp (r : Request) (rest : List Request) (s : State) : (takeRequest r rest s).imp = s.imp := rfl
@[simp] theorem takeRequest_fault (r : Request) (rest : List Request) (s : State) : (takeRequest r rest s).fault = s.fault := rfl
@[simp] theorem takeRequest_refusalMark (r : Request) (rest : List Request) (s : State) : (takeRequest r rest s).refusalMark = s.refusalMark := rfl
@[simp] theorem takeRequest_params (r : Request) (rest : List Request) (s : State) : (takeRequest r rest s).params = s.params := rfl
@[simp] theorem takeRequest_mem (r : Request) (rest : List Request) (s : State) : (takeRequest r rest s).mem = s.mem := rfl
@[simp] theorem takeRequest_requester (r : Request) (rest : List Request) (s : State) : (takeRequest r rest s).requester = requesterOf r s.requester := rfl
@[simp] theorem takeRequest_inputs (r : Request) (rest : List Request) (s : State) : (takeRequest r rest s).inputs = rest := rfl
@[simp] theorem takeRequest_results (r : Request) (rest : List Request) (s : State) : (takeRequest r rest s).results = s.results := rfl
@[simp] theorem takeRequest_replies (r : Request) (rest : List Request) (s : State) : (takeRequest r rest s).replies = s.replies := rfl
@[simp] theorem takeRequest_events (r : Request) (rest : List Request) (s : State) : (takeRequest r rest s).events = s.events := rfl
@[simp] theorem takeRequest_draws (r : Request) (rest : List Request) (s : State) : (takeRequest r rest s).draws = s.draws := rfl

/-! ### `placeRequest` -/

@[simp] theorem placeRequest_pc (r : Request) (s : State) : (placeRequest r s).pc = s.pc := rfl
@[simp] theorem placeRequest_sp (r : Request) (s : State) : (placeRequest r s).sp = s.sp := rfl
@[simp] theorem placeRequest_a (r : Request) (s : State) : (placeRequest r s).a = s.a := rfl
@[simp] theorem placeRequest_x (r : Request) (s : State) : (placeRequest r s).x = s.x := rfl
@[simp] theorem placeRequest_y (r : Request) (s : State) : (placeRequest r s).y = s.y := rfl
@[simp] theorem placeRequest_p (r : Request) (s : State) : (placeRequest r s).p = s.p := rfl
@[simp] theorem placeRequest_imp (r : Request) (s : State) : (placeRequest r s).imp = s.imp := rfl
@[simp] theorem placeRequest_fault (r : Request) (s : State) : (placeRequest r s).fault = s.fault := rfl
@[simp] theorem placeRequest_refusalMark (r : Request) (s : State) : (placeRequest r s).refusalMark = s.refusalMark := rfl
@[simp] theorem placeRequest_params (r : Request) (s : State) : (placeRequest r s).params = s.params := rfl
@[simp] theorem placeRequest_mem (r : Request) (s : State) : (placeRequest r s).mem = s.mem := rfl
@[simp] theorem placeRequest_requester (r : Request) (s : State) : (placeRequest r s).requester = s.requester := rfl
@[simp] theorem placeRequest_inputs (r : Request) (s : State) : (placeRequest r s).inputs = r :: s.inputs := rfl
@[simp] theorem placeRequest_results (r : Request) (s : State) : (placeRequest r s).results = s.results := rfl
@[simp] theorem placeRequest_replies (r : Request) (s : State) : (placeRequest r s).replies = s.replies := rfl
@[simp] theorem placeRequest_events (r : Request) (s : State) : (placeRequest r s).events = s.events := rfl
@[simp] theorem placeRequest_draws (r : Request) (s : State) : (placeRequest r s).draws = s.draws := rfl
@[simp] theorem forgetPc_pc_valid (s₀ s : State) : (forgetPc s₀ s).pc.valid = s.pc.valid := rfl

end Sys2Proof.Machine
end

