-- ==== Sys2Proof/Laws/Ops.lean ====
section
/-! SUPPORT. One lemma per shared operation that says everything it can do. -/

namespace Sys2Proof.Machine

@[simp] theorem Res.bind_ok {α β : Type} (v : α) (s : State) (k : α → State → Res β) : (Res.ok v s).bind k = k v s := rfl
@[simp] theorem Res.bind_err {α β : Type} (e : ErrorRecord) (s : State) (k : α → State → Res β) :
    (Res.err e s).bind k = .err e s := rfl

theorem Res.bind_assoc {α β γ : Type} (r : Res α) (k : α → State → Res β) (l : β → State → Res γ) :
    (r.bind k).bind l = r.bind fun v s => (k v s).bind l := by cases r <;> rfl

theorem readReg_valid {w : Nat} (sel : RegSel) {r : Reg w} (s : State) (h : r.valid = true) :
    readReg sel r s = .ok r.value s := by simp [readReg, h]

theorem readReg_invalid {w : Nat} (sel : RegSel) {r : Reg w} (s : State) (h : r.valid = false) :
    readReg sel r s = .err (.unwritten sel) s := by simp [readReg, h]

theorem busReadByte_in (m : Master) {a : Word} {s : State} (h : a.toNat < s.params.cap) :
    busReadByte m a s = .ok (Memory.read s.mem a.toNat)
      (recordEvent m .readByte a.toNat 1 (some [Memory.read s.mem a.toNat]) s) := by simp [busReadByte, h]

theorem busReadByte_out (m : Master) {a : Word} {s : State} (h : s.params.cap ≤ a.toNat) :
    busReadByte m a s = .err (.busRange a.toNat 1 .read) (recordEvent m .readByte a.toNat 1 none s) := by
  simp [busReadByte, Nat.not_lt.2 h]

theorem busReadWord_in (m : Master) {a : Word} {s : State} (h : a.toNat + 1 < s.params.cap) :
    busReadWord m a s = .ok (fromPageOffset (Memory.read s.mem (a.toNat + 1)) (Memory.read s.mem a.toNat))
      (recordEvent m .readWord a.toNat 2
        (some [Memory.read s.mem a.toNat, Memory.read s.mem (a.toNat + 1)]) s) := by simp [busReadWord, h]

theorem busReadWord_out (m : Master) {a : Word} {s : State} (h : s.params.cap ≤ a.toNat + 1) :
    busReadWord m a s = .err (.busRange a.toNat 2 .read) (recordEvent m .readWord a.toNat 2 none s) := by
  simp [busReadWord, Nat.not_lt.2 h]

theorem busWrite_in (m : Master) (op : BusOp) {a : Word} {bytes : List Byte} {s : State}
    (h : bytes = [] ∨ a.toNat + bytes.length ≤ s.params.cap) :
    busWrite m op a bytes s = .ok () (recordEvent m op a.toNat bytes.length (some bytes)
      { s with mem := Memory.writeSeq s.mem a.toNat bytes }) := by
  rcases h with h | h <;> simp [busWrite, h]

theorem busWrite_out (m : Master) (op : BusOp) {a : Word} {bytes : List Byte} {s : State}
    (hne : bytes ≠ []) (h : s.params.cap < a.toNat + bytes.length) :
    busWrite m op a bytes s = .err (.busRange a.toNat bytes.length .write)
      (recordEvent m op a.toNat bytes.length none s) := by
  simp [busWrite, hne, Nat.not_le.2 h]

/-- `FetchByte` of a valid `PC` inside the device (R152). -/
theorem fetchByte_in {s : State} (hv : s.pc.valid = true) (h : s.pc.value.toNat < s.params.cap) :
    fetchByte s = .ok (Memory.read s.mem s.pc.value.toNat)
      (incPc (recordEvent .cpu .readByte s.pc.value.toNat 1 (some [Memory.read s.mem s.pc.value.toNat]) s)) := by
  simp [fetchByte, readReg_valid _ _ hv, busReadByte_in _ h]

/-- `FetchByte` outside the device. -/
theorem fetchByte_out {s : State} (hv : s.pc.valid = true) (h : s.params.cap ≤ s.pc.value.toNat) :
    fetchByte s = .err (.busRange s.pc.value.toNat 1 .read)
      (recordEvent .cpu .readByte s.pc.value.toNat 1 none s) := by
  simp [fetchByte, readReg_valid _ _ hv, busReadByte_out _ h]

/-- `FetchByte` of an invalid `PC`. -/
theorem fetchByte_invalid {s : State} (hv : s.pc.valid = false) : fetchByte s = .err (.unwritten .PC) s := by
  simp [fetchByte, readReg_invalid _ _ hv]

/-- `FetchWord` of two operand bytes inside the device (R152): `PC` advances after each read. -/
theorem fetchWord_in {s : State} (hv : s.pc.valid = true) (h : s.pc.value.toNat < s.params.cap)
    (h' : (s.pc.value + 1).toNat < s.params.cap) :
    fetchWord s = .ok (fromPageOffset (Memory.read s.mem (s.pc.value + 1).toNat) (Memory.read s.mem s.pc.value.toNat))
      { s with
        pc := ⟨s.pc.value + 2, true⟩
        events := s.events ++
          [⟨.cpu, .readByte, s.pc.value.toNat, 1, some [Memory.read s.mem s.pc.value.toNat]⟩,
            ⟨.cpu, .readByte, (s.pc.value + 1).toNat, 1, some [Memory.read s.mem (s.pc.value + 1).toNat]⟩] } := by
  have hpc : s.pc.value + 1#16 + 1#16 = s.pc.value + 2#16 := by rw [BitVec.add_assoc]; rfl
  simp only [fetchWord, fetchByte_in hv h, Res.bind_ok]
  rw [fetchByte_in rfl (by simpa using h')]
  simp [incPc, recordEvent, hpc]

/-- `FetchWord` of a first byte inside the device and a second outside it (R152). -/
theorem fetchWord_out {s : State} (hv : s.pc.valid = true) (h : s.pc.value.toNat < s.params.cap)
    (h' : s.params.cap ≤ (s.pc.value + 1).toNat) :
    fetchWord s = .err (.busRange (s.pc.value + 1).toNat 1 .read)
      { s with
        pc := ⟨s.pc.value + 1, true⟩
        events := s.events ++
          [⟨.cpu, .readByte, s.pc.value.toNat, 1, some [Memory.read s.mem s.pc.value.toNat]⟩,
            ⟨.cpu, .readByte, (s.pc.value + 1).toNat, 1, none⟩] } := by
  simp only [fetchWord, fetchByte_in hv h, Res.bind_ok]
  rw [fetchByte_out rfl (by simpa using h')]
  simp [incPc, recordEvent]

theorem acceptCommand_ready {s : State} (h : s.fault = none) (k : State → Out) : acceptCommand s k = k s := by
  simp [acceptCommand, h]

theorem acceptCommand_faulted {s : State} {e : ErrorRecord} (h : s.fault = some e) (k : State → Out) :
    acceptCommand s k = .fault (.blockFaulted e) := by simp [acceptCommand, h]

/-- Everything an accepted command can do (R100, R206, R207). -/
theorem runCommand_next {s t : State} {body : State → Res Result} (h : runCommand s body = .next t) :
    s.fault = none ∧
      ((∃ r s', body s = .ok r s' ∧ t = respond r s') ∨ (∃ e s', body s = .err e s' ∧ t = takeError e s')) := by
  unfold runCommand acceptCommand at h
  split at h
  · refine ⟨‹_›, ?_⟩
    cases hb : body s with
    | ok r s' => exact .inl ⟨r, s', rfl, by simpa [hb] using h.symm⟩
    | err e s' => exact .inr ⟨e, s', rfl, by simpa [hb] using h.symm⟩
  · cases h

/-- Everything an accepted resolution can do (R208). -/
theorem runResolve_next {s t : State} {body : State → Res Result} (h : runResolve s body = .next t) :
    s.fault = none ∧
      ((∃ r s', body s = .ok r s' ∧ t = respond r s') ∨
        (∃ e s', body s = .err e s' ∧ t = takeError e (forgetPc s s'))) := by
  unfold runResolve acceptCommand at h
  split at h
  · refine ⟨‹_›, ?_⟩
    cases hb : body s with
    | ok r s' => exact .inl ⟨r, s', rfl, by simpa [hb] using h.symm⟩
    | err e s' => exact .inr ⟨e, s', rfl, by simpa [hb] using h.symm⟩
  · cases h

/-- A refused command changes the refusal mark alone (R210). -/
theorem refuseCommand_next {s t : State} (h : refuseCommand s = .next t) :
    s.fault = none ∧ t = { s with refusalMark := true } := by
  unfold refuseCommand acceptCommand at h
  split at h
  · exact ⟨‹_›, by simpa using h.symm⟩
  · cases h

/-- An 8-bit write is refused, or goes on with the low byte of its operand (R98, R99). -/
theorem withByteData_next {d : Word} {s t : State} {k : Byte → Out} (h : withByteData d s k = .next t) :
    (dataIsByte d = true ∧ k (lowByte d) = .next t) ∨
      (dataIsByte d = false ∧ s.fault = none ∧ t = { s with refusalMark := true }) := by
  unfold withByteData at h
  split at h
  · exact .inl ⟨‹_›, h⟩
  · rename_i hd; exact .inr ⟨Bool.eq_false_iff.2 hd, refuseCommand_next h⟩

/-- Everything a device operation can do: it always answers. -/
theorem runDevice_next {s t : State} {body : State → Res BusReply} (h : runDevice s body = .next t) :
    (∃ r s', body s = .ok r s' ∧ t = reply r s') ∨ (∃ e s', body s = .err e s' ∧ t = reply (.error e) s') := by
  unfold runDevice at h
  split at h
  · exact .inl ⟨_, _, ‹_›, by simpa using h.symm⟩
  · exact .inr ⟨_, _, ‹_›, by simpa using h.symm⟩

/-- Where a failed resolution leaves `PC`: at the entry value or at most as far on as its increments had reached
(R208). -/
theorem forgetPc_value (s₀ s : State) :
    ∃ n, n ≤ pcAdvance s₀ s ∧ (forgetPc s₀ s).pc.value = s₀.pc.value + BitVec.ofNat 16 n :=
  ⟨_, Nat.lt_succ_iff.1 (Nat.mod_lt _ (Nat.succ_pos _)), rfl⟩

end Sys2Proof.Machine
end

