-- ==== Sys2Proof/Laws/Resolve.lean ====
section
/-! SUPPORT. What every resolver can do, said once: the state it ends in, whether it returns or raises. -/

namespace Sys2Proof.Machine

theorem eventsMatch_refl (evs : List Event) : eventsMatch evs evs := by
  induction evs with
  | nil => trivial
  | cons ev evs ih => exact ⟨⟨rfl, rfl, rfl, rfl, .inr rfl⟩, ih⟩

/-- The resolver of each mode (R150). -/
def modeBody : Mode → State → Res Result
  | .acc, s => latchImplicit .acc s
  | .impl, s => latchImplicit .impl s
  | .imm, s => resolveImmediate s
  | .abs, s => resolveAbsolute s
  | .zp, s => resolveZeroPage s
  | .absX, s => resolveAbsIndexed .absX .X s.x s
  | .absY, s => resolveAbsIndexed .absY .Y s.y s
  | .zpX, s => resolveZpIndexed .zpX .X s.x s
  | .zpY, s => resolveZpIndexed .zpY .Y s.y s
  | .ind, s => resolveIndirect s
  | .indX, s => resolveIndexedIndirect s
  | .indY, s => resolveIndirectIndexed s
  | .rel, s => resolveRelative s

theorem exec_modeInstr (m : Mode) (s : State) : exec (modeInstr m) s = runResolve s (modeBody m) := by
  cases m <;> rfl

/-- An event that reads on behalf of the block. -/
def isCpuRead (ev : Event) : Prop := ev.master = .cpu ∧ (ev.op = .readByte ∨ ev.op = .readWord)

/-- From `s` to `s'`, after at most `n` increments of `PC`, only `PC`, `IMP` and the event history have changed, and the
history by reads of the block alone. -/
structure Reads (s s' : State) (n : Nat) : Prop where
  rest : s' = { s with pc := s'.pc, imp := s'.imp, events := s'.events }
  events : ∃ evs, s'.events = s.events ++ evs ∧ ∀ ev ∈ evs, isCpuRead ev
  pc : s'.pc = ⟨s.pc.value + BitVec.ofNat 16 n, s.pc.valid⟩

theorem Reads.refl (s : State) : Reads s s 0 := ⟨rfl, ⟨[], by simp, by simp⟩, by simp⟩

theorem Reads.trans {s s' s'' : State} {n m : Nat} (h : Reads s s' n) (h' : Reads s' s'' m) : Reads s s'' (n + m) := by
  obtain ⟨e, he, hr⟩ := h.events
  obtain ⟨e', he', hr'⟩ := h'.events
  refine ⟨?_, ⟨e ++ e', by rw [he', he, List.append_assoc], fun ev hev => ?_⟩, ?_⟩
  · rw [h'.rest, h.rest]
  · rcases List.mem_append.1 hev with hev | hev
    · exact hr ev hev
    · exact hr' ev hev
  · rw [h'.pc, h.pc, BitVec.add_assoc, BitVec.ofNat_add]

/-- One part of a resolution: it ends with `n` increments of `PC` where it returns, and with at most `n` where it
raises; and it leaves `IMP` as it was. -/
structure Part {α : Type} (s : State) (r : Res α) (n : Nat) : Prop where
  ok : ∀ v s', r = .ok v s' → Reads s s' n ∧ s'.imp = s.imp
  err : ∀ e s', r = .err e s' → (∃ k, k ≤ n ∧ Reads s s' k) ∧ s'.imp = s.imp

theorem Part.pure {α : Type} (s : State) (v : α) : Part s (.ok v s) 0 :=
  ⟨fun _ _ h => (by cases h; exact ⟨.refl s, rfl⟩), fun _ _ h => (by cases h)⟩

theorem Part.bind {α β : Type} {s : State} {r : Res α} {k : α → State → Res β} {n m : Nat} (h : Part s r n)
    (hk : ∀ v s', r = .ok v s' → Part s' (k v s') m) : Part s (r.bind k) (n + m) := by
  cases hr : r with
  | ok v s' =>
    obtain ⟨h1, h2⟩ := h.ok v s' hr
    refine ⟨fun w t hw => ?_, fun e t he => ?_⟩
    · obtain ⟨h3, h4⟩ := (hk v s' hr).ok w t hw
      exact ⟨h1.trans h3, h4.trans h2⟩
    · obtain ⟨⟨j, hj, h3⟩, h4⟩ := (hk v s' hr).err e t he
      exact ⟨⟨n + j, by omega, h1.trans h3⟩, h4.trans h2⟩
  | err e s' =>
    obtain ⟨⟨j, hj, h1⟩, h2⟩ := h.err e s' hr
    exact ⟨fun _ _ h => (by cases h), fun _ _ h => by cases h; exact ⟨⟨j, by omega, h1⟩, h2⟩⟩

theorem Part.readReg {w : Nat} (sel : RegSel) (r : Reg w) (s : State) : Part s (readReg sel r s) 0 := by
  unfold Machine.readReg
  split
  · exact .pure s _
  · exact ⟨fun _ _ h => (by cases h), fun _ _ h => by cases h; exact ⟨⟨0, Nat.le_refl 0, .refl s⟩, rfl⟩⟩

theorem Reads.event (op : BusOp) (a n : Nat) (v : Option (List Byte)) (s : State) (h : op = .readByte ∨ op = .readWord) :
    Reads s (recordEvent .cpu op a n v s) 0 :=
  ⟨rfl, ⟨_, rfl, by simp [isCpuRead, h]⟩, by simp⟩

theorem Part.busReadByte (a : Word) (s : State) : Part s (busReadByte .cpu a s) 0 := by
  unfold Machine.busReadByte
  split
  · exact ⟨fun _ _ h => (by cases h; exact ⟨.event _ _ _ _ _ (.inl rfl), rfl⟩), fun _ _ h => (by cases h)⟩
  · exact ⟨fun _ _ h => (by cases h), fun _ _ h => (by
      cases h; exact ⟨⟨0, Nat.le_refl 0, .event _ _ _ _ _ (.inl rfl)⟩, rfl⟩)⟩

theorem Part.busReadWord (a : Word) (s : State) : Part s (busReadWord .cpu a s) 0 := by
  unfold Machine.busReadWord
  split
  · exact ⟨fun _ _ h => (by cases h; exact ⟨.event _ _ _ _ _ (.inr rfl), rfl⟩), fun _ _ h => (by cases h)⟩
  · exact ⟨fun _ _ h => (by cases h), fun _ _ h => (by
      cases h; exact ⟨⟨0, Nat.le_refl 0, .event _ _ _ _ _ (.inr rfl)⟩, rfl⟩)⟩

/-- Advancing a valid `PC` and returning. -/
theorem Part.incPc {α : Type} {s : State} (hv : s.pc.valid = true) (v : α) : Part s (.ok v (incPc s)) 1 :=
  ⟨fun _ _ h => (by cases h; exact ⟨⟨rfl, ⟨[], by simp, by simp⟩, by simp [hv]⟩, rfl⟩), fun _ _ h => (by cases h)⟩

theorem Part.fetchByte (s : State) : Part s (fetchByte s) 1 := by
  cases hv : s.pc.valid with
  | false =>
    rw [fetchByte_invalid hv]
    exact ⟨fun _ _ h => (by cases h), fun _ _ h => by cases h; exact ⟨⟨0, by omega, .refl s⟩, rfl⟩⟩
  | true =>
    rw [Machine.fetchByte, readReg_valid _ _ hv, Res.bind_ok]
    refine (Part.busReadByte _ s).bind (m := 1) fun b s' h => .incPc ?_ b
    rw [((Part.busReadByte _ s).ok b s' h).1.pc]; exact hv

theorem Part.fetchWord (s : State) : Part s (fetchWord s) 2 :=
  (Part.fetchByte s).bind (m := 1) fun _ _ _ => (Part.fetchByte _).bind (m := 0) fun _ _ _ => .pure _ _

theorem Part.zpPointer (z : Byte) (s : State) : Part s (zpPointer z s) 0 := by
  unfold Machine.zpPointer
  split
  · exact (Part.busReadByte _ s).bind (m := 0) fun _ _ _ => (Part.busReadByte _ _).bind (m := 0) fun _ _ _ => .pure _ _
  · exact .busReadWord _ s

/-- Every resolver but ACC's and IMPL's is a part of reads: it advances `PC` by the bytes its mode consumes (R23), or
less where it raises, issues reads alone, and changes nothing else (R152). -/
theorem modeBody_part {m : Mode} (ha : m ≠ .acc) (hi : m ≠ .impl) (s : State) : Part s (modeBody m s) (pcBytes m) := by
  cases m with
  | acc => exact absurd rfl ha
  | impl => exact absurd rfl hi
  | imm =>
    refine (Part.readReg _ _ s).bind (m := 1) fun v s' h => ?_
    have hs : s.pc.valid = true ∧ s' = s := by
      unfold Machine.readReg at h
      split at h
      · cases h; exact ⟨‹_›, rfl⟩
      · cases h
    rw [hs.2]
    exact .incPc hs.1 _
  | abs => exact (Part.fetchWord s).bind (m := 0) fun _ _ _ => .pure _ _
  | zp => exact (Part.fetchByte s).bind (m := 0) fun _ _ _ => .pure _ _
  | absX | absY =>
    exact (Part.fetchWord s).bind (m := 0) fun _ _ _ => (Part.readReg _ _ _).bind (m := 0) fun _ _ _ => .pure _ _
  | zpX | zpY =>
    exact (Part.fetchByte s).bind (m := 0) fun _ _ _ => (Part.readReg _ _ _).bind (m := 0) fun _ _ _ => .pure _ _
  | ind =>
    exact (Part.fetchWord s).bind (m := 0) fun _ _ _ => (Part.busReadWord _ _).bind (m := 0) fun _ _ _ => .pure _ _
  | indX =>
    exact (Part.fetchByte s).bind (m := 0) fun _ _ _ => (Part.readReg _ _ _).bind (m := 0) fun _ _ _ =>
      (Part.zpPointer _ _).bind (m := 0) fun _ _ _ => .pure _ _
  | indY =>
    exact (Part.fetchByte s).bind (m := 0) fun _ _ _ => (Part.zpPointer _ _).bind (m := 0) fun _ _ _ =>
      (Part.readReg _ _ _).bind (m := 0) fun _ _ _ => .pure _ _
  | rel => exact (Part.fetchByte s).bind (m := 0) fun _ _ _ => .pure _ _

/-- A mode of two operand bytes begins with `FetchWord`, and issues reads alone after it (R152). -/
theorem modeBody_fetchWord {m : Mode} (h : pcBytes m = 2) (s : State) :
    ∃ rest, modeBody m s = (fetchWord s).bind rest ∧ ∀ w s', Part s' (rest w s') 0 := by
  cases m with
  | abs => exact ⟨_, rfl, fun _ _ => .pure _ _⟩
  | absX | absY => exact ⟨_, rfl, fun _ _ => (Part.readReg _ _ _).bind (m := 0) fun _ _ _ => .pure _ _⟩
  | ind => exact ⟨_, rfl, fun _ _ => (Part.busReadWord _ _).bind (m := 0) fun _ _ _ => .pure _ _⟩
  | _ => cases h

/-- A mode that reads operand bytes begins with `FetchByte`, and issues reads alone after it (R152). -/
theorem modeBody_fetchByte {m : Mode} (h : readsOperand m = true) (s : State) :
    ∃ n rest, modeBody m s = (fetchByte s).bind rest ∧ ∀ b s', Part s' (rest b s') n := by
  by_cases h2 : pcBytes m = 2
  · obtain ⟨rest, hb, hp⟩ := modeBody_fetchWord h2 s
    exact ⟨_, fun lo s => ((fetchByte s).bind fun hi s => .ok (fromPageOffset hi lo) s).bind rest,
      by rw [hb, fetchWord, Res.bind_assoc],
      fun _ s' => ((Part.fetchByte s').bind (m := 0) fun _ _ _ => .pure _ _).bind (m := 0) fun w s'' _ => hp w s''⟩
  cases m with
  | acc | impl | imm => cases h
  | abs | absX | absY | ind => exact absurd rfl h2
  | zp | rel => exact ⟨_, _, rfl, fun _ _ => .pure _ _⟩
  | zpX | zpY => exact ⟨_, _, rfl, fun _ _ => (Part.readReg _ _ _).bind (m := 0) fun _ _ _ => .pure _ _⟩
  | indX =>
    exact ⟨_, _, rfl, fun _ _ => (Part.readReg _ _ _).bind (m := 0) fun _ _ _ =>
      (Part.zpPointer _ _).bind (m := 0) fun _ _ _ => .pure _ _⟩
  | indY =>
    exact ⟨_, _, rfl, fun _ _ => (Part.zpPointer _ _).bind (m := 0) fun _ _ _ =>
      (Part.readReg _ _ _).bind (m := 0) fun _ _ _ => .pure _ _⟩

/-- A resolution whose resolver goes on from `s'` with reads alone ends in a next state whose history is that of `s'`
and what follows. -/
theorem runResolve_events {s s' : State} {body : State → Res Result} {n : Nat} (h : s.fault = none)
    (hp : Part s' (body s) n) : ∃ u evs, runResolve s body = .next u ∧ u.events = s'.events ++ evs := by
  rw [runResolve, acceptCommand_ready h]
  cases hb : body s with
  | ok r t =>
    obtain ⟨evs, he, -⟩ := (hp.ok r t hb).1.events
    exact ⟨_, evs, rfl, he⟩
  | err e t =>
    obtain ⟨⟨k, -, hr⟩, -⟩ := hp.err e t hb
    obtain ⟨evs, he, -⟩ := hr.events
    exact ⟨_, evs, rfl, he⟩

/-- ACC and IMPL latch `A` and return (R153, R154). -/
theorem modeBody_implicit {m : Mode} (h : m = .acc ∨ m = .impl) (s : State) :
    modeBody m s = .ok (.implicit 1) { s with imp := s.a } := by
  rcases h with rfl | rfl <;> rfl

end Sys2Proof.Machine
end

