-- ==== Sys2Proof/Laws/Exec.lean ====
section
/-! SUPPORT. Everything an instruction and a step can do, each said once: proofs take the cases of `exec_effect` and
`step_cases` in place of unfolding `exec` and `step`. -/

namespace Sys2Proof.Machine

/-- `i` is a pass-through write of the block (R190 to R192). -/
def IsPassThrough (i : Instr) : Prop :=
  (∃ a d, i = .writeByte a d) ∨ (∃ a d, i = .writeWord a d) ∨ (∃ a l, i = .writeBytes a l)

/-- `i` is a bus write of another master (R53 to R55). -/
def IsDeviceWrite (i : Instr) : Prop :=
  (∃ a v, i = .busWriteByte a v) ∨ (∃ a w, i = .busWriteWord a w) ∨ (∃ a l, i = .busWriteBytes a l)

/-- One of the three bus writes (R50). -/
def IsWriteOp (op : BusOp) : Prop := op = .writeByte ∨ op = .writeWord ∨ op = .writeBytes

/-- The next states an instruction can reach. -/
inductive Effect (i : Instr) (s : State) : State → Prop
  /-- An 8-bit write with a wide operand is refused (R99, R210). -/
  | refused : s.fault = none → isDeviceOp i = false → ¬ WellFormed i → Effect i s { s with refusalMark := true }
  /-- A mode that advances `PC` returns (R152). -/
  | resolution (m : Mode) (s' : State) (r : Result) : i = modeInstr m → m ≠ .acc → m ≠ .impl → s.fault = none →
      modeBody m s = .ok r s' → Reads s s' (pcBytes m) → s'.imp = s.imp → isError r = false → Effect i s (respond r s')
  /-- A mode raises an error (R207, R208). -/
  | failedResolution (m : Mode) (s' : State) (k : Nat) (e : ErrorRecord) : i = modeInstr m → s.fault = none →
      modeBody m s = .err e s' → Reads s s' k → k ≤ pcBytes m → s'.imp = s.imp →
      Effect i s (takeError e (forgetPc s s'))
  /-- ACC and IMPL (R153, R154). -/
  | latch (m : Mode) : i = modeInstr m → (m = .acc ∨ m = .impl) → s.fault = none →
      Effect i s (respond (.implicit 1) { s with imp := s.a })
  /-- RESET (R221). -/
  | reset : i = .reset → s.fault = none →
      Effect i s (respond .done { s with pc := .of 16 0xFFFC, sp := .of 8 0x00, p := .of 8 0x00 })
  /-- A command that neither advances `PC` nor issues a bus operation raises an error (R208). -/
  | failed (e : ErrorRecord) : isDeviceOp i = false → s.fault = none → Effect i s (takeError e s)
  /-- A read accessor returns (R120 to R126, R134, R135). -/
  | value (v : Value) : isDeviceOp i = false → FitsForm i (.value v) → s.fault = none →
      Effect i s (respond (.value v) s)
  /-- SET_PC (R127). -/
  | setPc (d : Word) : i = .setPc d → s.fault = none → Effect i s (respond .done { s with pc := .of 16 d })
  /-- SET_SP (R128). -/
  | setSp (d : Word) : i = .setSp d → s.fault = none → Effect i s (respond .done { s with sp := .of 8 (lowByte d) })
  /-- SET_A (R129). -/
  | setA (d : Word) : i = .setA d → s.fault = none → Effect i s (respond .done { s with a := .of 8 (lowByte d) })
  /-- SET_X (R130). -/
  | setX (d : Word) : i = .setX d → s.fault = none → Effect i s (respond .done { s with x := .of 8 (lowByte d) })
  /-- SET_Y (R131). -/
  | setY (d : Word) : i = .setY d → s.fault = none → Effect i s (respond .done { s with y := .of 8 (lowByte d) })
  /-- SET_P (R132). -/
  | setP (d : Word) : i = .setP d → s.fault = none → Effect i s (respond .done { s with p := .of 8 (lowByte d) })
  /-- SET_IMPLICIT (R133). -/
  | setImplicit (d : Word) : i = .setImplicit d → s.fault = none →
      Effect i s (respond .done { s with imp := .of 8 (lowByte d) })
  /-- SET_FLAG (R136). -/
  | setFlag (v : Bool) (f : Flag) : i = .setFlag v f → s.fault = none → s.p.valid = true →
      Effect i s (respond .done { s with p := .of 8 (withFlag s.p.value f v) })
  /-- A pass-through write stores (R190 to R192). -/
  | store (op : BusOp) (a : Nat) (bytes : List Byte) : IsPassThrough i → IsWriteOp op → s.fault = none →
      (bytes = [] ∨ a + bytes.length ≤ s.params.cap) →
      Effect i s (respond .done (recordEvent .cpu op a bytes.length (some bytes)
        { s with mem := Memory.writeSeq s.mem a bytes }))
  /-- A pass-through write raises `BusRange` (R53 to R55). -/
  | failedStore (op : BusOp) (a n : Nat) (e : ErrorRecord) : IsPassThrough i → s.fault = none →
      Effect i s (takeError e (recordEvent .cpu op a n none s))
  /-- A bus operation of another master that stores nothing: a read, or one that raised `BusRange` (R51 to R55). -/
  | deviceReply (r : BusReply) (op : BusOp) (a n : Nat) (v : Option (List Byte)) : isDeviceOp i = true →
      isOutsideBus i = false → (op = .readByte ∨ op = .readWord ∨ v = none) →
      Effect i s (reply r (recordEvent (.other s.requester) op a n v s))
  /-- A diagnostic access that stores nothing (R59, R60). -/
  | diagnosticReply (r : BusReply) : isDeviceOp i = true → Effect i s (reply r s)
  /-- Another master stores (R53 to R55). -/
  | deviceStore (op : BusOp) (a : Nat) (bytes : List Byte) : IsDeviceWrite i → IsWriteOp op →
      (bytes = [] ∨ a + bytes.length ≤ s.params.cap) →
      Effect i s (reply .done (recordEvent (.other s.requester) op a bytes.length (some bytes)
        { s with mem := Memory.writeSeq s.mem a bytes }))
  /-- Clear (R58). -/
  | clear (v : Byte) : i = .memClear v → Effect i s (reply .done { s with mem := Memory.filled s.params.cap v })
  /-- The indexed write stores (R60). -/
  | indexedStore (n : Nat) (v : Byte) : i = .memIndexedWrite n v → n < s.params.cap →
      Effect i s (reply .done { s with mem := Memory.write s.mem n v })

/-! ### The kinds of instructions -/

theorem modeInstr_isCommand (m : Mode) : isDeviceOp (modeInstr m) = false := by cases m <;> rfl

theorem IsPassThrough.isCommand {i : Instr} (h : IsPassThrough i) : isDeviceOp i = false := by
  rcases h with ⟨_, _, rfl⟩ | ⟨_, _, rfl⟩ | ⟨_, _, rfl⟩ <;> rfl

theorem IsDeviceWrite.isDeviceOp {i : Instr} (h : IsDeviceWrite i) : isDeviceOp i = true := by
  rcases h with ⟨_, _, rfl⟩ | ⟨_, _, rfl⟩ | ⟨_, _, rfl⟩ <;> rfl

theorem IsDeviceWrite.onBus {i : Instr} (h : IsDeviceWrite i) : isOutsideBus i = false := by
  rcases h with ⟨_, _, rfl⟩ | ⟨_, _, rfl⟩ | ⟨_, _, rfl⟩ <;> simp [isOutsideBus, codeOf, encode, encodeAs]

/-! ### The cases of each kind of meaning -/

/-- What is bound last returns no error, so the whole does not either. -/
theorem bind_returns {α : Type} {k : α → State → Res Result}
    (hk : ∀ v s r s', k v s = .ok r s' → isError r = false) (x : Res α) {r : Result} {s' : State}
    (h : x.bind k = .ok r s') : isError r = false := by
  cases x with
  | ok v s => exact hk v s r s' h
  | err => cases h

theorem returnAddr_returns (m : Mode) (a : Word) (b : Bool) (s : State) {r : Result} {s' : State}
    (h : returnAddr m a b s = .ok r s') : isError r = false := by cases h; rfl

/-- A resolution that returns does not return an error result (R100). -/
theorem modeBody_returns {m : Mode} {s s' : State} {r : Result} (h : modeBody m s = .ok r s') : isError r = false := by
  cases m with
  | acc | impl => cases h; rfl
  | imm | abs | zp | rel => exact bind_returns (fun _ _ _ _ => returnAddr_returns _ _ _ _) _ h
  | absX | absY | zpX | zpY | ind =>
    exact bind_returns (fun _ _ _ _ => bind_returns (fun _ _ _ _ => returnAddr_returns _ _ _ _) _) _ h
  | indX | indY =>
    exact bind_returns (fun _ _ _ _ => bind_returns (fun _ _ _ _ =>
      bind_returns (fun _ _ _ _ => returnAddr_returns _ _ _ _) _) _) _ h

theorem effect_mode {m : Mode} {s t : State} (h : exec (modeInstr m) s = .next t) : Effect (modeInstr m) s t := by
  rw [exec_modeInstr] at h
  by_cases hm : m = .acc ∨ m = .impl
  · obtain ⟨hf, ⟨r, s', h1, rfl⟩ | ⟨e, s', h1, rfl⟩⟩ := runResolve_next h <;> rw [modeBody_implicit hm] at h1 <;> cases h1
    exact .latch m rfl hm hf
  · obtain ⟨ha, hi⟩ := not_or.1 hm
    obtain ⟨hf, ⟨r, s', h1, rfl⟩ | ⟨e, s', h1, rfl⟩⟩ := runResolve_next h
    · obtain ⟨hr, him⟩ := (modeBody_part ha hi s).ok _ _ h1
      exact .resolution m s' r rfl ha hi hf h1 hr him (modeBody_returns h1)
    · obtain ⟨⟨k, hk, hr⟩, him⟩ := (modeBody_part ha hi s).err _ _ h1
      exact .failedResolution m s' k e rfl hf h1 hr hk him

theorem effect_getByte {i : Instr} {s t : State} {sel : RegSel} {reg : State → Reg 8} (hi : isDeviceOp i = false)
    (hv : ∀ b, FitsForm i (.value (.byte b))) (h : runCommand s (fun s => getByte sel (reg s) s) = .next t) : Effect i s t := by
  obtain ⟨hf, ⟨r, s', h1, rfl⟩ | ⟨e, s', h1, rfl⟩⟩ := runCommand_next h <;> simp only [getByte, readReg] at h1 <;>
    split at h1 <;> cases h1
  · exact .value _ hi (hv _) hf
  · exact .failed _ hi hf

theorem effect_byteData {i : Instr} {d : Word} {s t : State} {k : Byte → Out} (hi : isDeviceOp i = false)
    (hw : dataIsByte d = false → ¬ WellFormed i) (h : withByteData d s k = .next t)
    (hk : k (lowByte d) = .next t → Effect i s t) : Effect i s t := by
  obtain ⟨_, h⟩ | ⟨hd, hf, rfl⟩ := withByteData_next h
  · exact hk h
  · exact .refused hf hi (hw hd)

theorem effect_passThrough {i : Instr} {op : BusOp} {a : Word} {bytes : List Byte} {s t : State}
    (hi : IsPassThrough i) (hop : IsWriteOp op)
    (h : runCommand s (fun s => (busWrite .cpu op a bytes s).bind fun _ s => .ok .done s) = .next t) :
    Effect i s t := by
  by_cases hc : bytes = [] ∨ a.toNat + bytes.length ≤ s.params.cap
  · obtain ⟨hf, ⟨r, s', h1, rfl⟩ | ⟨e, s', h1, rfl⟩⟩ := runCommand_next h <;> rw [busWrite_in _ _ hc] at h1 <;> cases h1
    exact .store op _ bytes hi hop hf hc
  · obtain ⟨hf, ⟨r, s', h1, rfl⟩ | ⟨e, s', h1, rfl⟩⟩ := runCommand_next h <;>
      rw [busWrite_out _ _ (not_or.1 hc).1 (Nat.not_le.1 (not_or.1 hc).2)] at h1 <;> cases h1
    exact .failedStore op _ _ _ hi hf

theorem effect_deviceWrite {i : Instr} {op : BusOp} {a : Word} {bytes : List Byte} {s t : State}
    (hi : IsDeviceWrite i) (hop : IsWriteOp op)
    (h : runDevice s (fun s => (busWrite (.other s.requester) op a bytes s).bind fun _ s => .ok .done s) = .next t) :
    Effect i s t := by
  by_cases hc : bytes = [] ∨ a.toNat + bytes.length ≤ s.params.cap
  · obtain ⟨r, s', h1, rfl⟩ | ⟨e, s', h1, rfl⟩ := runDevice_next h <;> rw [busWrite_in _ _ hc] at h1 <;> cases h1
    exact .deviceStore op _ bytes hi hop hc
  · obtain ⟨r, s', h1, rfl⟩ | ⟨e, s', h1, rfl⟩ := runDevice_next h <;>
      rw [busWrite_out _ _ (not_or.1 hc).1 (Nat.not_le.1 (not_or.1 hc).2)] at h1 <;> cases h1
    exact .deviceReply _ op _ _ _ hi.isDeviceOp hi.onBus (.inr (.inr rfl))

/-- Everything an instruction can do. -/
theorem exec_effect {i : Instr} {s t : State} (h : exec i s = .next t) : Effect i s t := by
  cases i with
  | resolveAcc => exact effect_mode (m := .acc) h
  | resolveImpl => exact effect_mode (m := .impl) h
  | resolveImm => exact effect_mode (m := .imm) h
  | resolveAbs => exact effect_mode (m := .abs) h
  | resolveZp => exact effect_mode (m := .zp) h
  | resolveAbsX => exact effect_mode (m := .absX) h
  | resolveAbsY => exact effect_mode (m := .absY) h
  | resolveZpX => exact effect_mode (m := .zpX) h
  | resolveZpY => exact effect_mode (m := .zpY) h
  | resolveInd => exact effect_mode (m := .ind) h
  | resolveIndX => exact effect_mode (m := .indX) h
  | resolveIndY => exact effect_mode (m := .indY) h
  | resolveRel => exact effect_mode (m := .rel) h
  | resolveIllegal | resolveUnrecognized14 | resolveUnrecognized15 =>
    simp only [exec, execResolveIllegal, execResolveUnrecognized14, execResolveUnrecognized15] at h
    obtain ⟨hf, ⟨r, s', h1, rfl⟩ | ⟨e, s', h1, rfl⟩⟩ := runCommand_next h <;> cases h1
    exact .failed _ rfl hf
  | reset =>
    simp only [exec, execReset] at h
    obtain ⟨hf, ⟨r, s', h1, rfl⟩ | ⟨e, s', h1, rfl⟩⟩ := runCommand_next h <;> cases h1
    exact .reset rfl hf
  | getPc =>
    simp only [exec, execGetPc] at h
    obtain ⟨hf, ⟨r, s', h1, rfl⟩ | ⟨e, s', h1, rfl⟩⟩ := runCommand_next h <;> simp only [readReg] at h1 <;>
      split at h1 <;> cases h1
    · exact .value _ rfl ⟨_, rfl⟩ hf
    · exact .failed _ rfl hf
  | getSp =>
    simp only [exec, execGetSp] at h
    exact effect_getByte (reg := State.sp) rfl (fun _ => ⟨_, rfl⟩) h
  | getA =>
    simp only [exec, execGetA] at h
    exact effect_getByte (reg := State.a) rfl (fun _ => ⟨_, rfl⟩) h
  | getX =>
    simp only [exec, execGetX] at h
    exact effect_getByte (reg := State.x) rfl (fun _ => ⟨_, rfl⟩) h
  | getY =>
    simp only [exec, execGetY] at h
    exact effect_getByte (reg := State.y) rfl (fun _ => ⟨_, rfl⟩) h
  | getP =>
    simp only [exec, execGetP] at h
    exact effect_getByte (reg := State.p) rfl (fun _ => ⟨_, rfl⟩) h
  | getImp =>
    simp only [exec, execGetImp] at h
    exact effect_getByte (reg := State.imp) rfl (fun _ => ⟨_, rfl⟩) h
  | setPc d =>
    simp only [exec, execSetPc] at h
    obtain ⟨hf, ⟨r, s', h1, rfl⟩ | ⟨e, s', h1, rfl⟩⟩ := runCommand_next h <;> cases h1
    exact .setPc d rfl hf
  | setSp d =>
    simp only [exec, execSetSp] at h
    exact effect_byteData rfl (by simp [WellFormed, wellFormed]) h fun h => by
      obtain ⟨hf, ⟨r, s', h1, rfl⟩ | ⟨e, s', h1, rfl⟩⟩ := runCommand_next h <;> cases h1
      exact .setSp d rfl hf
  | setA d =>
    simp only [exec, execSetA] at h
    exact effect_byteData rfl (by simp [WellFormed, wellFormed]) h fun h => by
      obtain ⟨hf, ⟨r, s', h1, rfl⟩ | ⟨e, s', h1, rfl⟩⟩ := runCommand_next h <;> cases h1
      exact .setA d rfl hf
  | setX d =>
    simp only [exec, execSetX] at h
    exact effect_byteData rfl (by simp [WellFormed, wellFormed]) h fun h => by
      obtain ⟨hf, ⟨r, s', h1, rfl⟩ | ⟨e, s', h1, rfl⟩⟩ := runCommand_next h <;> cases h1
      exact .setX d rfl hf
  | setY d =>
    simp only [exec, execSetY] at h
    exact effect_byteData rfl (by simp [WellFormed, wellFormed]) h fun h => by
      obtain ⟨hf, ⟨r, s', h1, rfl⟩ | ⟨e, s', h1, rfl⟩⟩ := runCommand_next h <;> cases h1
      exact .setY d rfl hf
  | setP d =>
    simp only [exec, execSetP] at h
    exact effect_byteData rfl (by simp [WellFormed, wellFormed]) h fun h => by
      obtain ⟨hf, ⟨r, s', h1, rfl⟩ | ⟨e, s', h1, rfl⟩⟩ := runCommand_next h <;> cases h1
      exact .setP d rfl hf
  | setImplicit d =>
    simp only [exec, execSetImplicit] at h
    exact effect_byteData rfl (by simp [WellFormed, wellFormed]) h fun h => by
      obtain ⟨hf, ⟨r, s', h1, rfl⟩ | ⟨e, s', h1, rfl⟩⟩ := runCommand_next h <;> cases h1
      exact .setImplicit d rfl hf
  | getFlag f =>
    simp only [exec, execGetFlag] at h
    obtain ⟨hf, ⟨r, s', h1, rfl⟩ | ⟨e, s', h1, rfl⟩⟩ := runCommand_next h <;> simp only [readReg] at h1 <;>
      split at h1 <;> cases h1
    · refine .value _ (by cases f <;> rfl) ?_ hf
      unfold flagByte
      split
      · exact .inr rfl
      · exact .inl rfl
    · exact .failed _ (by cases f <;> rfl) hf
  | hasFlag f =>
    simp only [exec, execHasFlag] at h
    obtain ⟨hf, ⟨r, s', h1, rfl⟩ | ⟨e, s', h1, rfl⟩⟩ := runCommand_next h <;> simp only [readReg] at h1 <;>
      split at h1 <;> cases h1
    · exact .value _ (by cases f <;> rfl) ⟨_, rfl⟩ hf
    · exact .failed _ (by cases f <;> rfl) hf
  | setFlag v f =>
    simp only [exec, execSetFlag] at h
    obtain ⟨hf, ⟨r, s', h1, rfl⟩ | ⟨e, s', h1, rfl⟩⟩ := runCommand_next h <;> simp only [readReg] at h1 <;>
      split at h1 <;> cases h1
    · exact .setFlag v f rfl hf ‹_›
    · exact .failed _ (by cases f <;> cases v <;> rfl) hf
  | writeByte a d =>
    simp only [exec, execWriteByte, busWriteByte] at h
    exact effect_byteData rfl (by simp [WellFormed, wellFormed]) h
      fun h => effect_passThrough (.inl ⟨_, _, rfl⟩) (.inl rfl) h
  | writeWord a d =>
    simp only [exec, execWriteWord, busWriteWord] at h
    exact effect_passThrough (.inr (.inl ⟨_, _, rfl⟩)) (.inr (.inl rfl)) h
  | writeBytes a l =>
    simp only [exec, execWriteBytes, busWriteBytes] at h
    exact effect_passThrough (.inr (.inr ⟨_, _, rfl⟩)) (.inr (.inr rfl)) h
  | busReadByte a =>
    simp only [exec, execBusReadByte] at h
    obtain ⟨r, s', h1, rfl⟩ | ⟨e, s', h1, rfl⟩ := runDevice_next h <;> simp only [busReadByte] at h1 <;>
      split at h1 <;> cases h1 <;>
      exact .deviceReply _ _ _ _ _ rfl (by simp [isOutsideBus, codeOf, encode, encodeAs]) (.inl rfl)
  | busReadWord a =>
    simp only [exec, execBusReadWord] at h
    obtain ⟨r, s', h1, rfl⟩ | ⟨e, s', h1, rfl⟩ := runDevice_next h <;> simp only [busReadWord] at h1 <;>
      split at h1 <;> cases h1 <;>
      exact .deviceReply _ _ _ _ _ rfl (by simp [isOutsideBus, codeOf, encode, encodeAs]) (.inr (.inl rfl))
  | busWriteByte a v =>
    simp only [exec, execBusWriteByte, busWriteByte] at h
    exact effect_deviceWrite (.inl ⟨_, _, rfl⟩) (.inl rfl) h
  | busWriteWord a v =>
    simp only [exec, execBusWriteWord, busWriteWord] at h
    exact effect_deviceWrite (.inr (.inl ⟨_, _, rfl⟩)) (.inr (.inl rfl)) h
  | busWriteBytes a l =>
    simp only [exec, execBusWriteBytes, busWriteBytes] at h
    exact effect_deviceWrite (.inr (.inr ⟨_, _, rfl⟩)) (.inr (.inr rfl)) h
  | memClear v => cases h; exact .clear v rfl
  | memIndexedRead n =>
    simp only [exec, execMemIndexedRead] at h
    obtain ⟨r, s', h1, rfl⟩ | ⟨e, s', h1, rfl⟩ := runDevice_next h <;> simp only [deviceRead] at h1 <;>
      split at h1 <;> cases h1 <;> exact .diagnosticReply _ rfl
  | memIndexedWrite n v =>
    simp only [exec, execMemIndexedWrite] at h
    obtain ⟨r, s', h1, rfl⟩ | ⟨e, s', h1, rfl⟩ := runDevice_next h <;> simp only [deviceWrite] at h1 <;>
      split at h1 <;> cases h1
    · exact .indexedStore n v rfl ‹_›
    · exact .diagnosticReply _ rfl

/-- Everything a step can do: nothing where no transaction is pending, else the meaning of the decoded instruction, or
the refusal mark where nothing decodes. -/
theorem step_cases {s t : State} (h : step s = .next t) :
    (s.inputs = [] ∧ t = s) ∨ ∃ r rest, s.inputs = r :: rest ∧
      ((∃ i, decode r = .ok i ∧ exec i (takeRequest r rest s) = .next t) ∨
        (∃ e, decode r = .error e ∧ t = { takeRequest r rest s with refusalMark := true })) := by
  unfold step at h
  split at h
  · cases h; exact .inl ⟨‹_›, rfl⟩
  · rename_i r rest hr
    refine .inr ⟨r, rest, hr, ?_⟩
    split at h
    · exact .inl ⟨_, ‹_›, h⟩
    · refine .inr ⟨_, ‹_›, ?_⟩
      unfold refuseRequest at h
      split at h
      · exact (refuseCommand_next h).2
      · cases h; rfl

end Sys2Proof.Machine
end

