-- ==== Sys2Proof/Laws/Memory.lean ====
section
/-! SUPPORT. The byte store: a read after a write, and that every memory operation keeps the canonical form and stays
within the device. -/

namespace Sys2Proof.Machine

theorem Memory.wf_cons {b : Nat} {v : Byte} {m : Memory} :
    Memory.wf ((b, v) :: m) = true ↔ v ≠ Memory.unlisted ∧ (∀ c ∈ m, b < c.1) ∧ Memory.wf m = true := by
  simp [Memory.wf, and_assoc]

/-- An address below every listed one reads as an unlisted address. -/
theorem Memory.read_of_lt {m : Memory} {a : Nat} (h : ∀ c ∈ m, a < c.1) : Memory.read m a = Memory.unlisted := by
  induction m with
  | nil => rfl
  | cons c m ih =>
    have hc := h c (by simp)
    have : a ≠ c.1 := by omega
    simp only [Memory.read, this, if_false]
    exact ih fun d hd => h d (by simp [hd])

theorem Memory.read_write_same {m : Memory} (h : Memory.wf m = true) (a : Nat) (v : Byte) :
    Memory.read (Memory.write m a v) a = v := by
  induction m with
  | nil => by_cases hv : v = Memory.unlisted <;> simp [Memory.write, Memory.read, hv]
  | cons c m ih =>
    obtain ⟨b, w⟩ := c
    obtain ⟨-, hlt, hm⟩ := Memory.wf_cons.1 h
    simp only [Memory.write]
    split
    · rename_i hab
      have hread : Memory.read ((b, w) :: m) a = Memory.unlisted :=
        Memory.read_of_lt fun d hd => by
          rcases List.mem_cons.1 hd with rfl | hd
          · exact hab
          · exact Nat.lt_trans hab (hlt d hd)
      split
      · rename_i hv; rw [hread, hv]
      · simp [Memory.read]
    · split
      · rename_i hab
        split
        · rename_i hv; rw [hv]; exact Memory.read_of_lt fun d hd => hab ▸ hlt d hd
        · simp [Memory.read]
      · rename_i hab
        simp only [Memory.read, hab, if_false]
        exact ih hm

theorem Memory.read_write_other (m : Memory) {a c : Nat} (v : Byte) (h : c ≠ a) :
    Memory.read (Memory.write m a v) c = Memory.read m c := by
  induction m with
  | nil => by_cases hv : v = Memory.unlisted <;> simp [Memory.write, Memory.read, hv, h]
  | cons d m ih =>
    obtain ⟨b, w⟩ := d
    simp only [Memory.write]
    split
    · split <;> simp [Memory.read, h]
    · split
      · rename_i hab
        subst hab
        split <;> simp [Memory.read, h]
      · simp only [Memory.read, ih]

/-- A write lists no address but its own and those listed before. -/
theorem Memory.mem_write {m : Memory} {a : Nat} {v : Byte} {c : Host.Cell} (h : c ∈ Memory.write m a v) :
    c = (a, v) ∨ c ∈ m := by
  induction m with
  | nil =>
    simp only [Memory.write] at h
    split at h <;> simp_all
  | cons d m ih =>
    obtain ⟨b, w⟩ := d
    simp only [Memory.write] at h
    split at h
    · split at h <;> simp_all
    · split at h
      · split at h
        · exact .inr (List.mem_cons_of_mem _ h)
        · rcases List.mem_cons.1 h with h | h
          · exact .inl (by simp_all)
          · exact .inr (List.mem_cons_of_mem _ h)
      · rcases List.mem_cons.1 h with rfl | h
        · simp
        · rcases ih h with h | h
          · exact .inl h
          · exact .inr (List.mem_cons_of_mem _ h)

theorem Memory.wf_write {m : Memory} (h : Memory.wf m = true) (a : Nat) (v : Byte) :
    Memory.wf (Memory.write m a v) = true := by
  induction m with
  | nil => by_cases hv : v = Memory.unlisted <;> simp [Memory.write, Memory.wf, hv]
  | cons d m ih =>
    obtain ⟨b, w⟩ := d
    obtain ⟨hw, hlt, hm⟩ := Memory.wf_cons.1 h
    simp only [Memory.write]
    split
    · rename_i hab
      split
      · exact h
      · rename_i hv
        refine Memory.wf_cons.2 ⟨hv, fun c hc => ?_, h⟩
        rcases List.mem_cons.1 hc with rfl | hc
        · exact hab
        · exact Nat.lt_trans hab (hlt c hc)
    · split
      · rename_i hab
        split
        · exact hm
        · rename_i hv; exact Memory.wf_cons.2 ⟨hv, hab ▸ hlt, hm⟩
      · refine Memory.wf_cons.2 ⟨hw, fun c hc => ?_, ih hm⟩
        rcases Memory.mem_write hc with rfl | hc
        · show b < a; omega
        · exact hlt c hc

theorem Memory.wf_writeSeq {m : Memory} (h : Memory.wf m = true) (a : Nat) (bytes : List Byte) :
    Memory.wf (Memory.writeSeq m a bytes) = true := by
  induction bytes generalizing m a with
  | nil => exact h
  | cons v vs ih => exact ih (Memory.wf_write h a v) (a + 1)

theorem Memory.mem_writeSeq {m : Memory} {a : Nat} {bytes : List Byte} {c : Host.Cell}
    (h : c ∈ Memory.writeSeq m a bytes) : (a ≤ c.1 ∧ c.1 < a + bytes.length) ∨ c ∈ m := by
  induction bytes generalizing m a with
  | nil => exact .inr h
  | cons v vs ih =>
    simp only [List.length_cons]
    rcases ih h with h | h
    · left; omega
    · rcases Memory.mem_write h with rfl | h
      · left; simp
      · exact .inr h

theorem Memory.read_writeSeq_other (m : Memory) {a c : Nat} (bytes : List Byte)
    (h : c < a ∨ a + bytes.length ≤ c) : Memory.read (Memory.writeSeq m a bytes) c = Memory.read m c := by
  induction bytes generalizing m a with
  | nil => rfl
  | cons v vs ih =>
    simp only [List.length_cons] at h
    rw [Memory.writeSeq, ih _ (by omega), Memory.read_write_other _ _ (by omega)]

theorem Memory.read_writeSeq_same {m : Memory} (h : Memory.wf m = true) {a n : Nat} {bytes : List Byte} {b : Byte}
    (hb : bytes[n]? = some b) : Memory.read (Memory.writeSeq m a bytes) (a + n) = b := by
  induction bytes generalizing m a n with
  | nil => simp at hb
  | cons v vs ih =>
    cases n with
    | zero =>
      simp only [List.getElem?_cons_zero, Option.some.injEq] at hb
      rw [Memory.writeSeq, Memory.read_writeSeq_other _ _ (by omega), Nat.add_zero, Memory.read_write_same h, hb]
    | succ n =>
      rw [Memory.writeSeq, show a + (n + 1) = a + 1 + n by omega]
      exact ih (Memory.wf_write h a v) (by simpa using hb)

theorem Memory.read_filled {cap a : Nat} (v : Byte) (h : a < cap) : Memory.read (Memory.filled cap v) a = v := by
  unfold Memory.filled
  split
  · rename_i hv; rw [hv]; rfl
  · have key : ∀ l : List Nat, a ∈ l → Memory.read (l.map fun a => (a, v)) a = v := by
      intro l hl
      induction l with
      | nil => simp at hl
      | cons b l ih =>
        simp only [List.map_cons, Memory.read]
        split
        · rfl
        · rename_i hab; exact ih (by simp_all)
    exact key _ (List.mem_range.2 h)

theorem Memory.mem_filled {cap : Nat} {v : Byte} {c : Host.Cell} (h : c ∈ Memory.filled cap v) : c.1 < cap := by
  unfold Memory.filled at h
  split at h
  · simp at h
  · obtain ⟨a, ha, rfl⟩ := List.mem_map.1 h
    exact List.mem_range.1 ha

theorem Memory.wf_filled (cap : Nat) (v : Byte) : Memory.wf (Memory.filled cap v) = true := by
  unfold Memory.filled
  split
  · rfl
  · rename_i hv
    have key : ∀ l : List Nat, l.Pairwise (· < ·) → Memory.wf (l.map fun a => (a, v)) = true := by
      intro l hl
      induction l with
      | nil => rfl
      | cons b l ih =>
        obtain ⟨h1, h2⟩ := List.pairwise_cons.1 hl
        refine Memory.wf_cons.2 ⟨hv, fun c hc => ?_, ih h2⟩
        obtain ⟨a, ha, rfl⟩ := List.mem_map.1 hc
        exact h1 a ha
    exact key _ List.pairwise_lt_range

/-- Two stores in canonical form that read the same everywhere are the same data. -/
theorem Memory.eq_of_read {m n : Memory} (hm : Memory.wf m = true) (hn : Memory.wf n = true)
    (h : ∀ a, Memory.read m a = Memory.read n a) : m = n := by
  induction m generalizing n with
  | nil =>
    cases n with
    | nil => rfl
    | cons d n =>
      obtain ⟨hw, -, -⟩ := Memory.wf_cons.1 hn
      exact absurd (by simpa [Memory.read] using (h d.1).symm) hw
  | cons c m ih =>
    obtain ⟨b, v⟩ := c
    obtain ⟨hv, hlt, hm'⟩ := Memory.wf_cons.1 hm
    cases n with
    | nil => exact absurd (by simpa [Memory.read] using h b) hv
    | cons d n =>
      obtain ⟨e, w⟩ := d
      obtain ⟨hw, hlt', hn'⟩ := Memory.wf_cons.1 hn
      have hbe : b = e := by
        rcases Nat.lt_trichotomy b e with hbe | hbe | hbe
        · have := Memory.read_of_lt (m := (e, w) :: n) (a := b) fun d hd => by
            rcases List.mem_cons.1 hd with rfl | hd
            · exact hbe
            · exact Nat.lt_trans hbe (hlt' d hd)
          rw [← h b] at this
          exact absurd (by simpa [Memory.read] using this) hv
        · exact hbe
        · have := Memory.read_of_lt (m := (b, v) :: m) (a := e) fun d hd => by
            rcases List.mem_cons.1 hd with rfl | hd
            · exact hbe
            · exact Nat.lt_trans hbe (hlt d hd)
          rw [h e] at this
          exact absurd (by simpa [Memory.read] using this) hw
      subst hbe
      have hvw : v = w := by simpa [Memory.read] using h b
      subst hvw
      rw [ih hm' hn' fun a => ?_]
      by_cases hab : a = b
      · subst hab
        rw [Memory.read_of_lt hlt, Memory.read_of_lt hlt']
      · simpa [Memory.read, hab] using h a

end Sys2Proof.Machine
end

