-- ==== Sys2Proof/Laws/PerInstr.lean ====
section
/-! SUPPORT. The family RowMatch: the code bits of every instruction's transaction match its row of
spec/opcode_table.json. -/

namespace Sys2Proof.Laws.RowMatch

/-- The transaction of `i` is on its row's port and its code bits match its row's pattern under its mask. -/
def Statement (i : Instr) : Prop :=
  ∀ m, (codeOf (encodeAs m i)).1 = (opcodeRow i).port ∧
    (codeOf (encodeAs m i)).2 &&& (opcodeRow i).mask = (opcodeRow i).pattern

theorem resolveAcc : Statement .resolveAcc := fun _ => ⟨rfl, by simp [encodeAs, codeOf, opcodeRow]⟩
theorem resolveImpl : Statement .resolveImpl := fun _ => ⟨rfl, by simp [encodeAs, codeOf, opcodeRow]⟩
theorem resolveImm : Statement .resolveImm := fun _ => ⟨rfl, by simp [encodeAs, codeOf, opcodeRow]⟩
theorem resolveAbs : Statement .resolveAbs := fun _ => ⟨rfl, by simp [encodeAs, codeOf, opcodeRow]⟩
theorem resolveZp : Statement .resolveZp := fun _ => ⟨rfl, by simp [encodeAs, codeOf, opcodeRow]⟩
theorem resolveAbsX : Statement .resolveAbsX := fun _ => ⟨rfl, by simp [encodeAs, codeOf, opcodeRow]⟩
theorem resolveAbsY : Statement .resolveAbsY := fun _ => ⟨rfl, by simp [encodeAs, codeOf, opcodeRow]⟩
theorem resolveZpX : Statement .resolveZpX := fun _ => ⟨rfl, by simp [encodeAs, codeOf, opcodeRow]⟩
theorem resolveZpY : Statement .resolveZpY := fun _ => ⟨rfl, by simp [encodeAs, codeOf, opcodeRow]⟩
theorem resolveInd : Statement .resolveInd := fun _ => ⟨rfl, by simp [encodeAs, codeOf, opcodeRow]⟩
theorem resolveIndX : Statement .resolveIndX := fun _ => ⟨rfl, by simp [encodeAs, codeOf, opcodeRow]⟩
theorem resolveIndY : Statement .resolveIndY := fun _ => ⟨rfl, by simp [encodeAs, codeOf, opcodeRow]⟩
theorem resolveRel : Statement .resolveRel := fun _ => ⟨rfl, by simp [encodeAs, codeOf, opcodeRow]⟩
theorem resolveIllegal : Statement .resolveIllegal := fun _ => ⟨rfl, by simp [encodeAs, codeOf, opcodeRow]⟩
theorem resolveUnrecognized14 : Statement .resolveUnrecognized14 := fun _ => ⟨rfl, by simp [encodeAs, codeOf, opcodeRow]⟩
theorem resolveUnrecognized15 : Statement .resolveUnrecognized15 := fun _ => ⟨rfl, by simp [encodeAs, codeOf, opcodeRow]⟩
theorem reset : Statement .reset := fun _ => ⟨rfl, by simp [encodeAs, codeOf, opcodeRow]⟩
theorem getPc : Statement .getPc := fun _ => ⟨rfl, by simp [encodeAs, codeOf, opcodeRow]⟩
theorem getSp : Statement .getSp := fun _ => ⟨rfl, by simp [encodeAs, codeOf, opcodeRow]⟩
theorem getA : Statement .getA := fun _ => ⟨rfl, by simp [encodeAs, codeOf, opcodeRow]⟩
theorem getX : Statement .getX := fun _ => ⟨rfl, by simp [encodeAs, codeOf, opcodeRow]⟩
theorem getY : Statement .getY := fun _ => ⟨rfl, by simp [encodeAs, codeOf, opcodeRow]⟩
theorem getP : Statement .getP := fun _ => ⟨rfl, by simp [encodeAs, codeOf, opcodeRow]⟩
theorem getImp : Statement .getImp := fun _ => ⟨rfl, by simp [encodeAs, codeOf, opcodeRow]⟩
theorem setPc (data : Word) : Statement (.setPc data) := fun _ => ⟨rfl, by simp [encodeAs, codeOf, opcodeRow]⟩
theorem setSp (data : Word) : Statement (.setSp data) := fun _ => ⟨rfl, by simp [encodeAs, codeOf, opcodeRow]⟩
theorem setA (data : Word) : Statement (.setA data) := fun _ => ⟨rfl, by simp [encodeAs, codeOf, opcodeRow]⟩
theorem setX (data : Word) : Statement (.setX data) := fun _ => ⟨rfl, by simp [encodeAs, codeOf, opcodeRow]⟩
theorem setY (data : Word) : Statement (.setY data) := fun _ => ⟨rfl, by simp [encodeAs, codeOf, opcodeRow]⟩
theorem setP (data : Word) : Statement (.setP data) := fun _ => ⟨rfl, by simp [encodeAs, codeOf, opcodeRow]⟩
theorem setImplicit (data : Word) : Statement (.setImplicit data) := fun _ => ⟨rfl, by simp [encodeAs, codeOf, opcodeRow]⟩
theorem getFlag (f : Flag) : Statement (.getFlag f) := by cases f <;> exact fun _ => ⟨rfl, by simp [encodeAs, codeOf, opcodeRow, flagIndex]⟩
theorem hasFlag (f : Flag) : Statement (.hasFlag f) := by cases f <;> exact fun _ => ⟨rfl, by simp [encodeAs, codeOf, opcodeRow, flagIndex]⟩
theorem setFlag (v : Bool) (f : Flag) : Statement (.setFlag v f) := by cases v <;> cases f <;> exact fun _ => ⟨rfl, by simp [encodeAs, codeOf, opcodeRow, flagIndex]⟩
theorem writeByte (addr data : Word) : Statement (.writeByte addr data) := fun _ => ⟨rfl, by simp [encodeAs, codeOf, opcodeRow]⟩
theorem writeWord (addr data : Word) : Statement (.writeWord addr data) := fun _ => ⟨rfl, by simp [encodeAs, codeOf, opcodeRow]⟩
theorem writeBytes (addr : Word) (seq : List Byte) : Statement (.writeBytes addr seq) := fun _ => ⟨rfl, by simp [encodeAs, codeOf, opcodeRow]⟩
theorem busReadByte (addr : Word) : Statement (.busReadByte addr) := fun _ => ⟨rfl, by simp [encodeAs, codeOf, opcodeRow]⟩
theorem busReadWord (addr : Word) : Statement (.busReadWord addr) := fun _ => ⟨rfl, by simp [encodeAs, codeOf, opcodeRow]⟩
theorem busWriteByte (addr : Word) (value : Byte) : Statement (.busWriteByte addr value) := fun _ => ⟨rfl, by simp [encodeAs, codeOf, opcodeRow]⟩
theorem busWriteWord (addr value : Word) : Statement (.busWriteWord addr value) := fun _ => ⟨rfl, by simp [encodeAs, codeOf, opcodeRow]⟩
theorem busWriteBytes (addr : Word) (seq : List Byte) : Statement (.busWriteBytes addr seq) := fun _ => ⟨rfl, by simp [encodeAs, codeOf, opcodeRow]⟩
theorem memClear (value : Byte) : Statement (.memClear value) := fun _ => ⟨rfl, by simp [encodeAs, codeOf, opcodeRow]⟩
theorem memIndexedRead (i : Nat) : Statement (.memIndexedRead i) := fun _ => ⟨rfl, by simp [encodeAs, codeOf, opcodeRow]⟩
theorem memIndexedWrite (i : Nat) (value : Byte) : Statement (.memIndexedWrite i value) := fun _ => ⟨rfl, by simp [encodeAs, codeOf, opcodeRow]⟩

end Sys2Proof.Laws.RowMatch
end

