-- ==== Sys2Proof/Laws/Statements.lean ====
section
/-! SUPPORT. How the words of the statements (Safety.lean) are met: one lemma for each way a resolution, a command or a
device operation ends. -/

namespace Sys2Proof.Machine

/-- A command that raises `e` after the bus operations `evs` fails cleanly. -/
theorem failsCleanly_of {i : Instr} {s : State} {e : ErrorRecord} {evs : List Event}
    (h : exec i s = .next (takeError e { s with events := s.events ++ evs })) : FailsCleanly i s e evs :=
  ⟨evs, eventsMatch_refl evs, h⟩

/-- A device operation that answers the error `e` after the bus operations `evs`. -/
theorem answersError_of {i : Instr} {s : State} {e : ErrorRecord} {evs : List Event} (h : Answers i s evs (.error e)) :
    AnswersError i s evs e := ⟨evs, eventsMatch_refl evs, h⟩

/-- A write of a byte sequence leaves it stored, and every other byte as it was. -/
theorem stored_writeSeq {m : Memory} (h : Memory.wf m = true) (a : Nat) (bytes : List Byte) :
    Stored m (Memory.writeSeq m a bytes) a bytes :=
  ⟨fun _ _ hb => Memory.read_writeSeq_same h hb, fun _ hc => Memory.read_writeSeq_other m bytes hc⟩

/-- From `s` to `t` the bytes are stored from `a` on, and nothing has changed beside memory, the history and what was
returned or answered. -/
structure Stores (s t : State) (a : Nat) (bytes : List Byte) : Prop where
  rest : t = { s with mem := t.mem, events := t.events, results := t.results, replies := t.replies }
  stored : ∀ n b, bytes[n]? = some b → Memory.read t.mem (a + n) = b

/-- A pass-through write inside the device (R190 to R192). -/
theorem runCommand_stores {s : State} (op : BusOp) {a : Word} {bytes : List Byte} (hf : s.fault = none)
    (hm : Memory.wf s.mem = true) (hc : a.toNat + bytes.length ≤ s.params.cap) :
    ∃ t, runCommand s (fun s => (busWrite .cpu op a bytes s).bind fun _ s => .ok .done s) = .next t ∧
      Stores s t a.toNat bytes := by
  rw [runCommand, acceptCommand_ready hf]
  simp only [busWrite_in _ _ (.inr hc), Res.bind_ok]
  exact ⟨_, rfl, rfl, (stored_writeSeq hm _ _).1⟩

/-- A bus write of another master inside the device (R53 to R55). -/
theorem runDevice_stores {s : State} (op : BusOp) {a : Word} {bytes : List Byte} (hm : Memory.wf s.mem = true)
    (hc : a.toNat + bytes.length ≤ s.params.cap) :
    ∃ t, runDevice s (fun s => (busWrite (.other s.requester) op a bytes s).bind fun _ s => .ok .done s) = .next t ∧
      Stores s t a.toNat bytes := by
  simp only [runDevice, busWrite_in _ _ (.inr hc), Res.bind_ok]
  exact ⟨_, rfl, rfl, (stored_writeSeq hm _ _).1⟩

/-- An instruction whose bytes lie inside the device stores them (R53 to R55, R58, R60, R190 to R192). -/
theorem exec_stores {i : Instr} {s : State} {a : Nat} {bytes : List Byte} (hf : s.fault = none)
    (hm : Memory.wf s.mem = true) (hi : WellFormed i) (hb : bytesStored s.params.cap i = some (a, bytes))
    (hc : a + bytes.length ≤ s.params.cap) : ∃ t, exec i s = .next t ∧ Stores s t a bytes := by
  cases i <;> simp only [bytesStored, Option.some.injEq, Prod.mk.injEq, reduceCtorEq] at hb <;> obtain ⟨rfl, rfl⟩ := hb
  case writeByte addr d =>
    simp only [exec, execWriteByte, withByteData, show dataIsByte d = true from hi, if_true]
    exact runCommand_stores .writeByte hf hm hc
  case writeWord => exact runCommand_stores .writeWord hf hm hc
  case writeBytes => exact runCommand_stores .writeBytes hf hm hc
  case busWriteByte => exact runDevice_stores .writeByte hm hc
  case busWriteWord => exact runDevice_stores .writeWord hm hc
  case busWriteBytes => exact runDevice_stores .writeBytes hm hc
  case memClear v =>
    refine ⟨_, rfl, rfl, fun n b h => ?_⟩
    obtain ⟨hn, rfl⟩ := List.getElem?_eq_some_iff.1 h
    rw [Nat.zero_add, List.getElem_replicate]
    exact Memory.read_filled v (by simpa using hn)
  case memIndexedWrite index v =>
    simp only [exec, execMemIndexedWrite, runDevice, deviceWrite, if_pos (show index < s.params.cap from hc), Res.bind_ok]
    exact ⟨_, rfl, rfl, (stored_writeSeq hm index [v]).1⟩

/-- A resolution that returns `r`. -/
theorem runResolve_returns {s s' : State} {r : Result} {body : State → Res Result} (h : s.fault = none)
    (hb : body s = .ok r s') : runResolve s body = .next (respond r s') := by
  rw [runResolve, acceptCommand_ready h]
  simp only [hb]

/-- A resolution that raises `e` after the reads `evs` and `n` increments of `PC` fails with it. -/
theorem failsWith_of {i : Instr} {s : State} {body : State → Res Result} {e : ErrorRecord} {evs : List Event} {k n : Nat}
    (h : s.fault = none) (hi : exec i s = runResolve s body) (hn : n ≤ k)
    (hb : body s = .err e { s with
      pc := ⟨s.pc.value + BitVec.ofNat 16 n, s.pc.valid⟩, events := s.events ++ evs }) :
    FailsWith i s e evs k := by
  obtain ⟨m, hm, hpc⟩ := forgetPc_value s { s with
    pc := ⟨s.pc.value + BitVec.ofNat 16 n, s.pc.valid⟩, events := s.events ++ evs }
  have : pcAdvance s { s with
      pc := ⟨s.pc.value + BitVec.ofNat 16 n, s.pc.valid⟩, events := s.events ++ evs } ≤ n := by
    simp [pcAdvance]
    omega
  refine ⟨m, evs, by omega, eventsMatch_refl evs, ?_⟩
  rw [hi, runResolve, acceptCommand_ready h]
  simp only [hb, takeError, ← hpc]
  rfl

/-- A resolution that begins with `FetchByte`: its errors are FetchByte's, and it goes on with the operand byte. -/
theorem oneOperand_of {i : Instr} {s : State} {body : State → Res Result} {rest : Byte → State → Res Result}
    {k : Byte → List Event → Prop} (h : s.fault = none) (hi : exec i s = runResolve s body)
    (hb : body s = (fetchByte s).bind rest)
    (hk : s.pc.valid = true → s.pc.value.toNat < s.params.cap →
      k (operand0 s) [byteRead s.pc.value.toNat (operand0 s)]) : OneOperand i s k := by
  refine ⟨fun hv => ?_, fun hv hc => ?_, fun hv hc => hk hv hc⟩
  · exact failsWith_of (n := 0) h hi (Nat.le_refl 0) (by rw [hb]; simp [fetchByte_invalid hv])
  · exact failsWith_of (n := 0) h hi (Nat.le_refl 0)
      (by rw [hb]; simp [fetchByte_out hv hc, recordEvent, byteReadFailed])

/-- A resolution that begins with `FetchWord`: its errors are FetchWord's, and it goes on with the two operand bytes. -/
theorem twoOperands_of {i : Instr} {s : State} {body : State → Res Result} {rest : Word → State → Res Result}
    {k : Word → List Event → Prop} (h : s.fault = none) (hi : exec i s = runResolve s body)
    (hb : body s = (fetchWord s).bind rest)
    (hk : s.pc.valid = true → s.pc.value.toNat < s.params.cap → (s.pc.value + 1).toNat < s.params.cap →
      k (operand1 s ++ operand0 s)
        [byteRead s.pc.value.toNat (operand0 s), byteRead (s.pc.value + 1).toNat (operand1 s)]) :
    TwoOperands i s k := by
  refine ⟨fun hv => ?_, fun hv hc => ?_, fun hv hc => ⟨fun hc2 => ?_, fun hc2 => hk hv hc hc2⟩⟩
  · exact failsWith_of (n := 0) h hi (Nat.le_refl 0) (by rw [hb]; simp [fetchWord, fetchByte_invalid hv])
  · exact failsWith_of (n := 0) h hi (Nat.le_refl 0)
      (by rw [hb]; simp [fetchWord, fetchByte_out hv hc, recordEvent, byteReadFailed])
  · exact failsWith_of (n := 1) h hi (Nat.le_refl 1)
      (by rw [hb, fetchWord_out hv hc hc2]; simp [byteReadFailed, byteRead, operand0, hv])

/-- A resolution that, in the state `s₁` reached by `n` increments and the reads `evs`, fetches the pointer at `z`: its
errors are the pointer's, and it goes on with the pointer. -/
theorem pointerRead_of {i : Instr} {s s₁ : State} {z : Byte} {evs : List Event} {n : Nat} {body : State → Res Result}
    {rest : Word → State → Res Result} {k : Word → List Event → Prop} (h : s.fault = none)
    (hi : exec i s = runResolve s body)
    (hs : s₁ = { s with pc := ⟨s.pc.value + BitVec.ofNat 16 n, s.pc.valid⟩, events := s.events ++ evs })
    (hb : body s = (zpPointer z s₁).bind rest)
    (hk : ∀ w evs', zpPointer z s₁ = .ok w { s₁ with events := s.events ++ evs' } → k w evs') :
    PointerRead i s z evs n k := by
  subst hs
  refine ⟨fun hw => ⟨fun hc => ?_, fun hc hc2 => ?_, fun hc hc2 => ?_⟩, fun hw => ⟨fun hc => ?_, fun hc => ?_⟩⟩
  · refine failsWith_of h hi (Nat.le_refl n) ?_
    rw [hb]
    simp only [zpPointer, hw, if_true]
    rw [busReadByte_out _ (by simpa [zext16_toNat] using hc)]
    simp [recordEvent, byteReadFailed, zext16_toNat]
  · refine failsWith_of h hi (Nat.le_refl n) ?_
    rw [hb]
    simp only [zpPointer, hw, if_true]
    rw [busReadByte_in _ (by simpa [zext16_toNat] using hc), Res.bind_ok,
      busReadByte_out _ (by rw [zext16_toNat]; exact hc2)]
    simp only [recordEvent, byteReadFailed, byteRead, zext16_toNat, zpByte, Res.bind_err, List.append_assoc]
    rfl
  · refine hk _ _ ?_
    simp only [zpPointer, hw, if_true]
    rw [busReadByte_in _ (by simpa [zext16_toNat] using hc), Res.bind_ok,
      busReadByte_in _ (by rw [zext16_toNat]; exact hc2)]
    simp only [recordEvent, byteRead, zext16_toNat, zpByte, Res.bind_ok, List.append_assoc, fromPageOffset]
    rfl
  · refine failsWith_of h hi (Nat.le_refl n) ?_
    rw [hb]
    simp only [zpPointer, hw, Bool.false_eq_true, if_false]
    rw [busReadWord_out _ (by simpa [zext16_toNat] using hc)]
    simp [recordEvent, wordReadFailed, zext16_toNat]
  · refine hk _ _ ?_
    simp only [zpPointer, hw, Bool.false_eq_true, if_false]
    rw [busReadWord_in _ (by simpa [zext16_toNat] using hc)]
    simp [recordEvent, wordRead, zext16_toNat, zpByte, fromPageOffset]

end Sys2Proof.Machine
end

