-- ==== Sys2Proof/Tests/Slice0.lean ====
section
/-! SUPPORT. Tests. The numbers S<n> and V<n> are the vectors of spec/95_test_vectors.md, from which the expected results
are taken; the other expectations are worked out by hand from the rule named beside them. -/

namespace Sys2Proof.Tests

open Machine

/-! ### Small states and what the tests look at -/

/-- The reset state with `PC` at `pc` and the listed bytes in memory. -/
def ready (pc : Word) (cells : List (Nat × Byte)) : State :=
  { State.reset with
    pc := .of 16 pc
    mem := cells.foldl (fun m c => Memory.write m c.1 c.2) [] }

/-- `ready` with both index registers written. -/
def indexed (pc : Word) (x y : Byte) (cells : List (Nat × Byte)) : State :=
  { ready pc cells with x := .of 8 x, y := .of 8 y }

/-- A device of `cap` bytes. -/
def sized (cap : Nat) (s : State) : State := { s with params := { s.params with cap := cap } }

/-- The other reading of `ZP_POINTER_WRAP` (R181). -/
def noWrap (s : State) : State := { s with params := { s.params with zpPointerWrap := false } }

/-- A block just built, with every register invalid (R220). -/
def built : State := { State.reset with pc := .unwritten 16, sp := .unwritten 8, p := .unwritten 8 }

/-- A block whose `FAULT` holds the error of V37. -/
def faulted : State := { State.reset with fault := some (.illegalMode 13), results := [.error (.illegalMode 13)] }

/-- The results a next state holds. -/
def results : Out → Option (List Result)
  | .next s => some s.results
  | .fault _ | .refused _ => none

/-- The answers to other masters a next state holds. -/
def replies : Out → Option (List BusReply)
  | .next s => some s.replies
  | .fault _ | .refused _ => none

/-- `PC` of a next state. -/
def pcOf : Out → Option (Reg 16)
  | .next s => some s.pc
  | .fault _ | .refused _ => none

/-- One thing of a next state. -/
def see {α : Type} (f : State → α) : Out → Option α
  | .next s => some (f s)
  | .fault _ | .refused _ => none

/-- The addresses, widths and success of the bus operations of a next state. -/
def accesses : Out → Option (List (Nat × Nat × Bool))
  | .next s => some (s.events.map fun ev => (ev.addr, ev.width, ev.value.isSome))
  | .fault _ | .refused _ => none

/-- Run one instruction after another. -/
def runAll : List Instr → State → Out
  | [], s => .next s
  | i :: is, s =>
    match exec i s with
    | .next t => runAll is t
    | .fault e => .fault e
    | .refused r => .refused r

/-- The transaction decodes to `i`. -/
def decodesTo (r : Request) (i : Instr) : Bool :=
  match decode r with
  | .ok j => j == i
  | .error _ => false

/-- The decoder refuses the transaction, with this name. -/
def rejects (r : Request) (e : DecodeError) : Bool :=
  match decode r with
  | .ok _ => false
  | .error d => d == e

/-! ### WellFormed: an ill-formed term for each check (R98) -/

theorem test_wellFormed_setSp : wellFormed (.setSp 0x0100) = false ∧ wellFormed (.setSp 0x00FF) = true := by decide
theorem test_wellFormed_setA : wellFormed (.setA 0x0142) = false ∧ wellFormed (.setA 0x0042) = true := by decide
theorem test_wellFormed_setX : wellFormed (.setX 0xFFFF) = false ∧ wellFormed (.setX 0x0000) = true := by decide
theorem test_wellFormed_setY : wellFormed (.setY 0x8000) = false ∧ wellFormed (.setY 0x0080) = true := by decide
theorem test_wellFormed_setP : wellFormed (.setP 0x01FF) = false ∧ wellFormed (.setP 0x00FF) = true := by decide
theorem test_wellFormed_setImplicit :
    wellFormed (.setImplicit 0x0200) = false ∧ wellFormed (.setImplicit 0x007F) = true := by decide
theorem test_wellFormed_writeByte :
    wellFormed (.writeByte 0x0300 0x01A9) = false ∧ wellFormed (.writeByte 0x0300 0x00A9) = true := by decide
theorem test_wellFormed_wide :
    wellFormed (.setPc 0xFFFF) = true ∧ wellFormed (.writeWord 0x0200 0xBEEF) = true := by decide

/-! ### Decoding: every constructor, by a word written out from R94, R97 and R104 -/

theorem test_decode_resolve_low :
    decodesTo (.command 0b00000000 .none) .resolveAcc ∧ decodesTo (.command 0b00000001 .none) .resolveImpl ∧
    decodesTo (.command 0b00000010 .none) .resolveImm ∧ decodesTo (.command 0b00000011 .none) .resolveAbs ∧
    decodesTo (.command 0b00000100 .none) .resolveZp ∧ decodesTo (.command 0b00000101 .none) .resolveAbsX ∧
    decodesTo (.command 0b00000110 .none) .resolveAbsY ∧ decodesTo (.command 0b00000111 .none) .resolveZpX := by
  decide

theorem test_decode_resolve_high :
    decodesTo (.command 0b00001000 .none) .resolveZpY ∧ decodesTo (.command 0b00001001 .none) .resolveInd ∧
    decodesTo (.command 0b00001010 .none) .resolveIndX ∧ decodesTo (.command 0b00001011 .none) .resolveIndY ∧
    decodesTo (.command 0b00001100 .none) .resolveRel ∧ decodesTo (.command 0b00001101 .none) .resolveIllegal ∧
    decodesTo (.command 0b00001110 .none) .resolveUnrecognized14 ∧
    decodesTo (.command 0b00001111 .none) .resolveUnrecognized15 := by decide

theorem test_decode_reset_get :
    decodesTo (.command 0b00010000 .none) .reset ∧ decodesTo (.command 0b00100000 .none) .getPc ∧
    decodesTo (.command 0b00100001 .none) .getSp ∧ decodesTo (.command 0b00100010 .none) .getA ∧
    decodesTo (.command 0b00100011 .none) .getX ∧ decodesTo (.command 0b00100100 .none) .getY ∧
    decodesTo (.command 0b00100101 .none) .getP ∧ decodesTo (.command 0b00100110 .none) .getImp := by decide

theorem test_decode_set :
    decodesTo (.command 0b00110000 (.data 0xABCD)) (.setPc 0xABCD) ∧
    decodesTo (.command 0b00110001 (.data 0x00FF)) (.setSp 0x00FF) ∧
    decodesTo (.command 0b00110010 (.data 0x0042)) (.setA 0x0042) ∧
    decodesTo (.command 0b00110011 (.data 0x0005)) (.setX 0x0005) ∧
    decodesTo (.command 0b00110100 (.data 0x00FF)) (.setY 0x00FF) ∧
    decodesTo (.command 0b00110101 (.data 0x0042)) (.setP 0x0042) ∧
    decodesTo (.command 0b00110110 (.data 0x007F)) (.setImplicit 0x007F) := by decide

theorem test_decode_flags :
    decodesTo (.command 0b01000000 .none) (.getFlag .C) ∧ decodesTo (.command 0b01000111 .none) (.getFlag .N) ∧
    decodesTo (.command 0b01010001 .none) (.hasFlag .Z) ∧ decodesTo (.command 0b01010100 .none) (.hasFlag .B) ∧
    decodesTo (.command 0b01101000 .none) (.setFlag true .C) ∧
    decodesTo (.command 0b01101111 .none) (.setFlag true .N) ∧
    decodesTo (.command 0b01100000 .none) (.setFlag false .C) ∧
    decodesTo (.command 0b01100110 .none) (.setFlag false .V) := by decide

theorem test_decode_write :
    decodesTo (.command 0b01110000 (.addrData 0x0FFF 0x005A)) (.writeByte 0x0FFF 0x005A) ∧
    decodesTo (.command 0b01110001 (.addrData 0x0200 0xBEEF)) (.writeWord 0x0200 0xBEEF) ∧
    decodesTo (.command 0b01110010 (.addrSeq 0x0FFE [1, 2, 3])) (.writeBytes 0x0FFE [1, 2, 3]) := by decide

theorem test_decode_bus :
    decodesTo (.bus 7 0b000 (.addr 0x0FFF)) (.busReadByte 0x0FFF) ∧
    decodesTo (.bus 7 0b001 (.addr 0x0FFE)) (.busReadWord 0x0FFE) ∧
    decodesTo (.bus 7 0b010 (.addrByte 0x0300 0xA9)) (.busWriteByte 0x0300 0xA9) ∧
    decodesTo (.bus 7 0b011 (.addrWord 0x0200 0xBEEF)) (.busWriteWord 0x0200 0xBEEF) ∧
    decodesTo (.bus 7 0b100 (.addrSeq 0x0300 [0x34, 0x12])) (.busWriteBytes 0x0300 [0x34, 0x12]) ∧
    decodesTo (.bus 7 0b101 (.value 0xEA)) (.memClear 0xEA) ∧
    decodesTo (.bus 7 0b110 (.index 0x1000)) (.memIndexedRead 0x1000) ∧
    decodesTo (.bus 7 0b111 (.indexByte 3 4)) (.memIndexedWrite 3 4) := by decide

/-- R99: the ends of each reserved range, and the words beside them that are commands. -/
theorem test_decode_reserved :
    [0x11, 0x1F, 0x27, 0x28, 0x2F, 0x37, 0x38, 0x3F, 0x48, 0x4F, 0x58, 0x5F, 0x73, 0x7F, 0x80, 0xFF].all
      (fun w : Byte => (formOfWord w).isNone) = true ∧
    [0x10, 0x26, 0x36, 0x47, 0x57, 0x6F, 0x72].all (fun w : Byte => (formOfWord w).isSome) = true := by decide

/-- V15, R99: a wide operand of an 8-bit write. -/
theorem test_decode_wide :
    rejects (.command 0x32 (.data 0x0142)) (.dataTooWide 0x32 0x0142) ∧
    rejects (.command 0x70 (.addrData 0x0300 0x0100)) (.dataTooWide 0x70 0x0100) := by decide

/-- R98: a command carries no operand its class does not take. -/
theorem test_decode_operands :
    rejects (.command 0x20 (.data 0)) .operandsDoNotFit ∧
    rejects (.command 0x32 .none) .operandsDoNotFit ∧
    rejects (.bus 0 0b000 (.index 0)) .operandsDoNotFit := by decide

/-- The numbers of spec/opcode_table.json, a command row of 8 bits and a bus row of 3. -/
theorem test_decodeTableWord :
    decodeTableWord 8 0x05 = some .resolveAbsX ∧ decodeTableWord 8 0x30 = some (.setPc 0) ∧
    decodeTableWord 8 0x72 = some (.writeBytes 0 []) ∧ decodeTableWord 3 0x5 = some (.memClear 0) ∧
    decodeTableWord 8 0x80 = none := by decide

/-! ### Accessors -/

/-- V2. -/
theorem test_reset_then_reads :
    results (runAll [.reset, .getPc, .getSp, .getP] built) =
      some [.done, .value (.word 0xFFFC), .value (.byte 0x00), .value (.byte 0x00)] := by decide

/-- V1, R120. -/
theorem test_getPc_invalid :
    see (fun s => s.fault) (exec .getPc built) = some (some (.unwritten .PC)) ∧
    results (exec .getPc built) = some [.error (.unwritten .PC)] := by decide

/-- V3. -/
theorem test_getA_invalid : results (exec .getA State.reset) = some [.error (.unwritten .A)] := by decide

/-- V4. -/
theorem test_setA_getA : results (runAll [.setA 0x0042, .getA] State.reset) = some [.done, .value (.byte 0x42)] := by
  decide

/-- V5. -/
theorem test_setPc_getPc :
    results (runAll [.setPc 0xABCD, .getPc] State.reset) = some [.done, .value (.word 0xABCD)] := by decide

/-- V6. -/
theorem test_setSp_getSp : results (runAll [.setSp 0x00FF, .getSp] State.reset) = some [.done, .value (.byte 0xFF)] := by
  decide

/-- R123, R130. -/
theorem test_setX_getX : results (runAll [.setX 0x0005, .getX] built) = some [.done, .value (.byte 0x05)] := by decide

/-- R124, R131. -/
theorem test_setY_getY : results (runAll [.setY 0x00FF, .getY] built) = some [.done, .value (.byte 0xFF)] := by decide

/-- R132: `P.Z = 1`, `P.V = 1`, every other flag 0. -/
theorem test_setP_getP :
    results (runAll [.setP 0x0042, .getP, .getFlag .Z, .getFlag .V, .getFlag .U] built) =
      some [.done, .value (.byte 0x42), .value (.byte 1), .value (.byte 1), .value (.byte 0)] := by decide

/-- R126, R133. -/
theorem test_setImplicit_getImp :
    results (runAll [.setImplicit 0x007F, .getImp] built) = some [.done, .value (.byte 0x7F)] := by decide

/-- R129: SET_A changes neither `IMP` nor a flag. -/
theorem test_setA_keeps :
    see (fun s => (s.imp, s.p)) (exec (.setA 0x0000) { State.reset with imp := .of 8 0x44, p := .of 8 0x00 }) =
      some (.of 8 0x44, .of 8 0x00) := by decide

/-- V8. -/
theorem test_flag_sequence :
    results (runAll [.setFlag true .C, .setFlag true .N, .getFlag .N, .hasFlag .Z, .setFlag false .C, .getP]
      State.reset) =
      some [.done, .done, .value (.byte 1), .value (.bool false), .done, .value (.byte 0x80)] := by decide

/-- V9. -/
theorem test_setFlag_set :
    [Flag.C, .Z, .I, .D, .B, .U, .V, .N].map (fun f => withFlag 0x00 f true) =
      [0x01, 0x02, 0x04, 0x08, 0x10, 0x20, 0x40, 0x80] := by decide

/-- V10. -/
theorem test_setFlag_clear :
    [Flag.C, .Z, .I, .D, .B, .U, .V, .N].map (fun f => withFlag 0xFF f false) =
      [0xFE, 0xFD, 0xFB, 0xF7, 0xEF, 0xDF, 0xBF, 0x7F] := by decide

/-- V11. -/
theorem test_getFlag_all :
    [Flag.C, .Z, .I, .D, .B, .U, .V, .N].map (fun f => flagByte 0x42 f) = [0, 1, 0, 0, 0, 0, 1, 0] := by decide

/-- V13. -/
theorem test_setFlag_invalid : results (exec (.setFlag true .C) built) = some [.error (.unwritten .P)] := by decide

/-- V14. -/
theorem test_setFlag_after_setP :
    see (fun s => s.p) (runAll [.setP 0x0000, .setFlag true .C] built) = some (.of 8 0x01) := by decide

/-! ### RESET -/

/-- V80. -/
theorem test_reset_registers :
    see (fun s => (s.pc, s.sp, s.p, s.a, s.imp))
      (exec .reset { State.reset with
        pc := .of 16 0x1234, sp := .of 8 0x80, p := .of 8 0xFF, a := .of 8 0x11, imp := .of 8 0x44 }) =
      some (.of 16 0xFFFC, .of 8 0x00, .of 8 0x00, .of 8 0x11, .of 8 0x44) := by decide

/-! ### Direct modes -/

/-- V20. -/
theorem test_resolveAcc :
    see (fun s => (s.results, s.imp, s.pc)) (exec .resolveAcc { ready 0x0300 [] with a := .of 8 0x42 }) =
      some ([.implicit 1], .of 8 0x42, .of 16 0x0300) := by decide

/-- V22. -/
theorem test_resolveAcc_invalid :
    results (runAll [.resolveAcc, .getImp] { ready 0x0300 [] with imp := .of 8 0x01 }) =
      some [.implicit 1, .error (.unwritten .IMP)] := by decide

/-- V21. -/
theorem test_resolveImpl :
    see (fun s => (s.results, s.imp, s.pc.valid)) (exec .resolveImpl { built with a := .of 8 0x00 }) =
      some ([.implicit 1], .of 8 0x00, false) := by decide

/-- V24. -/
theorem test_resolveImm_top :
    see (fun s => (s.results, s.pc)) (exec .resolveImm (ready 0xFFFF [])) =
      some ([.addr 0xFFFF 1], .of 16 0x0000) := by decide

/-- V25: no read, so no fault above the capacity. -/
theorem test_resolveImm_unread :
    see (fun s => (s.results, s.pc, s.events)) (exec .resolveImm (sized 0x1000 (ready 0x2000 []))) =
      some ([.addr 0x2000 1], .of 16 0x2001, []) := by decide

/-- V27. -/
theorem test_resolveAbs :
    see (fun s => (s.results, s.pc)) (exec .resolveAbs (ready 0x0300 [(0x0300, 0x34), (0x0301, 0x12)])) =
      some ([.addr 0x1234 3], .of 16 0x0302) ∧
    accesses (exec .resolveAbs (ready 0x0300 [(0x0300, 0x34), (0x0301, 0x12)])) =
      some [(0x0300, 1, true), (0x0301, 1, true)] := by decide

/-- V28. -/
theorem test_resolveAbs_top :
    see (fun s => (s.results, s.pc)) (exec .resolveAbs (ready 0xFFFF [(0x0000, 0x80)])) =
      some ([.addr 0x8000 3], .of 16 0x0001) := by decide

/-- V30: `PC` afterwards is unknown and not looked at. -/
theorem test_resolveAbs_out :
    results (exec .resolveAbs (sized 0x0400 (ready 0x03FF []))) = some [.error (.busRange 0x0400 1 .read)] ∧
    accesses (exec .resolveAbs (sized 0x0400 (ready 0x03FF []))) =
      some [(0x03FF, 1, true), (0x0400, 1, false)] := by decide

/-- V32. -/
theorem test_resolveZp :
    see (fun s => (s.results, s.pc)) (exec .resolveZp (ready 0x0300 [(0x0300, 0xFF)])) =
      some ([.addr 0x00FF 2], .of 16 0x0301) := by decide

/-- V82 with ZP, P5: a fetch at the reset location outside the device. -/
theorem test_resolveZp_out :
    results (exec .resolveZp (sized 0x1000 State.reset)) = some [.error (.busRange 0xFFFC 1 .read)] := by decide

/-- V35. -/
theorem test_resolveRel_back :
    see (fun s => (s.results, s.pc)) (exec .resolveRel (ready 0x0300 [(0x0300, 0x80)])) =
      some ([.addr 0xFF80 1], .of 16 0x0301) := by decide

/-- V34. -/
theorem test_resolveRel_on :
    results (exec .resolveRel (ready 0x0300 [(0x0300, 0x7F)])) = some [.addr 0x007F 1] := by decide

/-- V37. -/
theorem test_resolveIllegal :
    see (fun s => (s.results, s.fault, s.pc)) (exec .resolveIllegal (ready 0x0300 [])) =
      some ([.error (.illegalMode 13)], some (.illegalMode 13), .of 16 0x0300) := by decide

/-- V38. -/
theorem test_resolveUnrecognized14 :
    see (fun s => (s.results, s.pc)) (exec .resolveUnrecognized14 (ready 0x0300 [])) =
      some ([.error (.illegalMode 14)], .of 16 0x0300) := by decide

/-- V38. -/
theorem test_resolveUnrecognized15 :
    see (fun s => (s.results, s.pc)) (exec .resolveUnrecognized15 (ready 0x0300 [])) =
      some ([.error (.illegalMode 15)], .of 16 0x0300) := by decide

/-! ### Indexed modes -/

/-- S3. -/
theorem test_resolveAbsX_cross :
    see (fun s => (s.results, s.pc)) (exec .resolveAbsX (indexed 0x0300 0x01 0 [(0x0300, 0xFF), (0x0301, 0x01)])) =
      some ([.addr 0x0200 4], .of 16 0x0302) := by decide

/-- V51. -/
theorem test_resolveAbsX_wrap :
    results (exec .resolveAbsX (indexed 0x0300 0x01 0 [(0x0300, 0xFF), (0x0301, 0xFF)])) = some [.addr 0x0000 4] := by
  decide

/-- V54. -/
theorem test_resolveAbsY :
    results (exec .resolveAbsY (indexed 0x0300 0 0xFF [(0x0301, 0x12)])) = some [.addr 0x12FF 3] := by decide

/-- V53. -/
theorem test_resolveAbsY_cross :
    results (exec .resolveAbsY (indexed 0x0300 0 0xFF [(0x0300, 0x01), (0x0301, 0x12)])) =
      some [.addr 0x1300 4] := by decide

/-- V58. -/
theorem test_resolveZpX_wrap :
    see (fun s => (s.results, s.pc)) (exec .resolveZpX (indexed 0x0300 0x80 0 [(0x0300, 0x80)])) =
      some ([.addr 0x0000 2], .of 16 0x0301) := by decide

/-- V55 with ZP_X: the operand byte is read first. -/
theorem test_resolveZpX_invalid :
    results (exec .resolveZpX (ready 0x0300 [])) = some [.error (.unwritten .X)] ∧
    accesses (exec .resolveZpX (ready 0x0300 [])) = some [(0x0300, 1, true)] := by decide

/-- V59. -/
theorem test_resolveZpY :
    results (exec .resolveZpY (indexed 0x0300 0 0xFF [(0x0300, 0xFF)])) = some [.addr 0x00FE 2] := by decide

/-- V56: the operand byte's error comes before the index register's (R206). -/
theorem test_resolveAbsX_priority :
    results (exec .resolveAbsX (sized 0x0300 (ready 0x02FF []))) = some [.error (.busRange 0x0300 1 .read)] := by decide

/-! ### Indirect modes -/

/-- V61: the high byte comes from `0x3100`, not `0x3000`. -/
theorem test_resolveInd_pageEnd :
    see (fun s => (s.results, s.pc)) (exec .resolveInd (ready 0x0300
      [(0x0300, 0xFF), (0x0301, 0x30), (0x30FF, 0x34), (0x3100, 0x12), (0x3000, 0x99)])) =
      some ([.addr 0x1234 5], .of 16 0x0302) := by decide

/-- V62. -/
theorem test_resolveInd_top :
    results (exec .resolveInd (ready 0x0300 [(0x0300, 0xFF), (0x0301, 0xFF)])) =
      some [.error (.busRange 0xFFFF 2 .read)] := by decide

/-- V63. -/
theorem test_resolveIndX_wrap :
    results (exec .resolveIndX (indexed 0x0300 0x05 0 [(0x0300, 0xFE), (0x0004, 0x30)])) = some [.addr 0x3000 6] ∧
    accesses (exec .resolveIndX (indexed 0x0300 0x05 0 [(0x0300, 0xFE), (0x0004, 0x30)])) =
      some [(0x0300, 1, true), (0x0003, 1, true), (0x0004, 1, true)] := by decide

/-- V64, V65: a pointer at `0x00FF`, for both values of `ZP_POINTER_WRAP`. -/
theorem test_resolveIndX_pageEnd :
    results (exec .resolveIndX
      (indexed 0x0300 0x05 0 [(0x0300, 0xFA), (0x00FF, 0x78), (0x0000, 0x56), (0x0100, 0xEE)])) =
      some [.addr 0x5678 5] ∧
    results (exec .resolveIndX
      (noWrap (indexed 0x0300 0x05 0 [(0x0300, 0xFA), (0x00FF, 0x78), (0x0000, 0x56), (0x0100, 0xEE)]))) =
      some [.addr 0xEE78 5] := by decide

/-- S6: the page crossing of the final addition adds no cycle. -/
theorem test_resolveIndY_cross :
    see (fun s => (s.results, s.pc))
      (exec .resolveIndY (indexed 0x0300 0 0x01 [(0x0300, 0x70), (0x0070, 0xFF), (0x0071, 0x20)])) =
      some ([.addr 0x2100 5], .of 16 0x0301) := by decide

/-- V69, V70. -/
theorem test_resolveIndY_pageEnd :
    results (exec .resolveIndY
      (indexed 0x0300 0 0x10 [(0x0300, 0xFF), (0x00FF, 0xF8), (0x0000, 0x20), (0x0100, 0x40)])) =
      some [.addr 0x2108 6] ∧
    results (exec .resolveIndY
      (noWrap (indexed 0x0300 0 0x10 [(0x0300, 0xFF), (0x00FF, 0xF8), (0x0000, 0x20), (0x0100, 0x40)]))) =
      some [.addr 0x4108 6] := by decide

/-! ### Writes and the bus device -/

/-- V44. -/
theorem test_writeByte_edge :
    see (fun s => (s.results, s.mem)) (exec (.writeByte 0x0FFF 0x005A) (sized 0x1000 State.reset)) =
      some ([.done], [(0x0FFF, 0x5A)]) := by decide

/-- V45: nothing is stored. -/
theorem test_writeWord_edge :
    see (fun s => (s.results, s.mem)) (exec (.writeWord 0x0FFF 0xBEEF) (sized 0x1000 State.reset)) =
      some ([.error (.busRange 0x0FFF 2 .write)], []) := by decide

/-- V48. -/
theorem test_writeWord :
    see (fun s => (s.results, s.mem)) (exec (.writeWord 0x0200 0xBEEF) State.reset) =
      some ([.done], [(0x0200, 0xEF), (0x0201, 0xBE)]) := by decide

/-- V46: nothing is stored. -/
theorem test_writeBytes_edge :
    see (fun s => (s.results, s.mem)) (exec (.writeBytes 0x0FFE [1, 2, 3]) (sized 0x1000 State.reset)) =
      some ([.error (.busRange 0x0FFE 3 .write)], []) := by decide

/-- V47: an empty sequence never faults. -/
theorem test_writeBytes_empty :
    see (fun s => (s.results, s.mem)) (exec (.writeBytes 0x2000 []) (sized 0x1000 State.reset)) =
      some ([.done], []) := by decide

/-- V49a. -/
theorem test_writeBytes_then_readWord :
    replies (runAll [.writeBytes 0x01FF [0xAA, 0xBB], .busReadWord 0x01FF] State.reset) = some [.word 0xBBAA] := by decide

/-- V40, V41. -/
theorem test_busReadByte :
    replies (exec (.busReadByte 0x0FFF) (sized 0x1000 (ready 0 [(0x0FFF, 0x5A)]))) = some [.byte 0x5A] ∧
    replies (exec (.busReadByte 0x1000) (sized 0x1000 (ready 0 []))) =
      some [.error (.busRange 0x1000 1 .read)] := by decide

/-- V42, V43, V49. -/
theorem test_busReadWord :
    replies (exec (.busReadWord 0x0FFE) (sized 0x1000 (ready 0 [(0x0FFE, 0x34), (0x0FFF, 0x12)]))) =
      some [.word 0x1234] ∧
    replies (exec (.busReadWord 0x0FFF) (sized 0x1000 (ready 0 []))) = some [.error (.busRange 0x0FFF 2 .read)] ∧
    replies (exec (.busReadWord 0xFFFF) State.reset) = some [.error (.busRange 0xFFFF 2 .read)] := by decide

/-- R53. -/
theorem test_busWriteByte :
    see (fun s => (s.replies, s.mem, s.results)) (exec (.busWriteByte 0x0300 0xA9) State.reset) =
      some ([.done], [(0x0300, 0xA9)], []) := by decide

/-- R54, on a word over a page boundary (R62). -/
theorem test_busWriteWord :
    see (fun s => (s.replies, s.mem)) (exec (.busWriteWord 0x01FF 0xBEEF) State.reset) =
      some ([.done], [(0x01FF, 0xEF), (0x0200, 0xBE)]) := by decide

/-- R55: a sequence past `0xFFFF` does not wrap, and stores nothing. -/
theorem test_busWriteBytes_top :
    see (fun s => (s.replies, s.mem)) (exec (.busWriteBytes 0xFFFF [1, 2]) State.reset) =
      some ([.error (.busRange 0xFFFF 2 .write)], []) := by decide

/-- V49b, on a small device. -/
theorem test_memClear :
    see (fun s => (s.replies, s.mem)) (exec (.memClear 0xEA) (sized 2 (ready 0 [(1, 7)]))) =
      some ([.done], [(0, 0xEA), (1, 0xEA)]) := by decide

/-- V49c. -/
theorem test_memIndexedRead :
    replies (exec (.memIndexedRead 0x1000) (sized 0x1000 State.reset)) = some [.error (.busRange 0x1000 1 .read)] ∧
    replies (exec (.memIndexedRead 0x0FFF) (sized 0x1000 (ready 0 [(0x0FFF, 3)]))) = some [.byte 3] := by decide

/-- R60. -/
theorem test_memIndexedWrite :
    see (fun s => (s.replies, s.mem)) (exec (.memIndexedWrite 0x0FFF 9) (sized 0x1000 State.reset)) =
      some ([.done], [(0x0FFF, 9)]) ∧
    see (fun s => (s.replies, s.mem)) (exec (.memIndexedWrite 0x1000 9) (sized 0x1000 State.reset)) =
      some ([.error (.busRange 0x1000 1 .write)], []) := by decide

/-- V49d, R57. -/
theorem test_construct_refused :
    construct 0 [] true = .error (.capacity 0) ∧ construct 65537 [] true = .error (.capacity 65537) ∧
    construct (-1) [] true = .error (.capacity (-1)) := ⟨rfl, rfl, rfl⟩

/-- R220 on a device of two bytes. -/
theorem test_construct :
    (match construct 2 [5, 6] false with
      | .ok s => (s.mem, s.params.cap, s.pc.valid, s.fault) == ([(0, 5), (1, 6)], 2, false, none)
      | .error _ => false) = true := by decide

/-! ### The step -/

/-- V16, V17: a reserved word sets the refusal mark alone. -/
theorem test_step_reserved :
    step { State.reset with inputs := [.command 0x27 .none] } = .next { State.reset with refusalMark := true } ∧
    step { State.reset with inputs := [.command 0x80 .none] } = .next { State.reset with refusalMark := true } := by
  exact ⟨rfl, rfl⟩

/-- V15. -/
theorem test_step_wide :
    step { State.reset with inputs := [.command 0x32 (.data 0x0142)] } =
      .next { State.reset with refusalMark := true } := rfl

/-- V39, R209. -/
theorem test_step_faulted :
    step { faulted with inputs := [.command 0x10 .none] } = .fault (.blockFaulted (.illegalMode 13)) := rfl

/-- R70, R209: another master still reads while the block is faulted, and the event names it. -/
theorem test_step_faulted_other :
    see (fun s => (s.replies, s.events.map Event.master)) (step { faulted with inputs := [.bus 7 0b000 (.addr 0)] }) =
      some ([.byte 0], [.other 7]) := by decide

/-- The word the host places is the one the next step runs. -/
theorem test_withFetchWord :
    see (fun s => s.results) (step (State.reset.withFetchWord 8 0x20)) = some [.value (.word 0xFFFC)] ∧
    see (fun s => s.replies) (step (State.reset.withFetchWord 3 0x0)) = some [.byte 0] := by decide

/-- S11. -/
theorem test_address :
    fromPageOffset 0x12 0x34 = 0x1234 ∧ pageOf 0x1234 = 0x12 ∧ offsetOf 0x1234 = 0x34 ∧
    displayAddress 0x1234 = ['1', '2', '3', '4'] ∧ displayAddress 0x00AB = ['0', '0', 'A', 'B'] := by decide

/-- R101: the numeric codes of the errors. -/
theorem test_errorCode :
    errorCode (.busRange 0 1 .read) = 1 ∧ errorCode (.illegalMode 13) = 2 ∧ errorCode (.unwritten .PC) = 3 := by decide

/-- R227; what is pending is the model's reading (log entry 21). -/
theorem test_endedWell : EndedWell State.reset ∧ ¬ EndedWell faulted := by
  refine ⟨⟨rfl, rfl, rfl, rfl⟩, fun h => ?_⟩
  cases h.2.1

/-! ### Witnesses: for every statement with hypotheses a concrete state and operands that meet them, each clause at the
edge of its range -/

/-- All registers written, `PC` at `0x0300`, memory and capacity full. -/
def full : State :=
  { indexed 0x0300 0x01 0x01 [(0x0300, 0xFE), (0x0301, 0xFF)] with a := .of 8 0x42, imp := .of 8 0x07 }

/-- The state's next transaction. -/
def next (r : Request) (s : State) : State := { s with inputs := [r] }

theorem test_witness_DecodeOfEncode :
    WellFormed (.setA 0x00FF) ∧ WellFormed (.writeByte 0xFFFF 0x00FF) ∧ WellFormed (.memIndexedRead 65536) := by decide

theorem test_witness_EncodeOfDecode :
    decode (.command 0x36 (.data 0x00FF)) = .ok (.setImplicit 0x00FF) ∧
    decode (.bus 9 7 (.indexByte 65535 0xFF)) = .ok (.memIndexedWrite 65535 0xFF) := ⟨rfl, rfl⟩

theorem test_witness_ReservedCommandRefused :
    ReservedWord 0x11 ∧ ReservedWord 0x80 ∧ ReservedWord 0xFF ∧ ¬ ReservedWord 0x10 ∧ ¬ ReservedWord 0x72 ∧
    ReservedCommand 0x31 (.data 0x0100) ∧ ReservedCommand 0x36 (.data 0xFFFF) ∧
    ReservedCommand 0x70 (.addrData 0x0000 0x0100) ∧
    (State.reset.fault = none ∧ (next (.command 0x27 .none) State.reset).inputs = [.command 0x27 .none]) := by
  refine ⟨?_, ?_, ?_, ?_, ?_, .inr (.inl ⟨by decide, 0x0100, rfl, by decide⟩),
    .inr (.inl ⟨by decide, 0xFFFF, rfl, by decide⟩), .inr (.inr ⟨by decide, 0x0000, 0x0100, rfl, by decide⟩), rfl, rfl⟩ <;>
    unfold ReservedWord <;> decide

/-- The mark of an earlier refusal before a step that succeeds. -/
theorem test_witness_ReservedCommandRefused_mark :
    ∃ t, step (next (.command 0x10 .none) { State.reset with refusalMark := true }) = .next t ∧ t.refusalMark = true :=
  ⟨_, rfl, rfl⟩

theorem test_witness_StepRunsDecodedInstruction :
    ((next (.command 0x20 .none) full).inputs = [.command 0x20 .none] ∧ decode (.command 0x20 .none) = .ok .getPc) ∧
    ((next (.bus 4 0 (.addr 0xFFFF)) full).inputs = [.bus 4 0 (.addr 0xFFFF)] ∧
      decode (.bus 4 0 (.addr 0xFFFF)) = .ok (.busReadByte 0xFFFF)) := ⟨⟨rfl, rfl⟩, rfl, rfl⟩

theorem test_witness_StepIdleWithoutTransaction : State.reset.inputs = [] := rfl

theorem test_witness_FaultedBlockTakesNoStep :
    faulted.fault = some (.illegalMode 13) ∧ isDeviceOp .reset = false ∧
    (next (.command 0x10 .none) faulted).inputs = [.command 0x10 .none] ∧
    ∃ t, step (next (.bus 0 5 (.value 0x00)) faulted) = .next t ∧ t.fault = some (.illegalMode 13) :=
  ⟨rfl, rfl, rfl, _, rfl, rfl⟩

/-- The invariant at a state with memory, an error and a small device, which then takes a step that writes. -/
theorem test_witness_StepKeepsInvariant :
    MachineInv (next (.bus 1 2 (.addrByte 0x0001 0xA9)) { sized 2 faulted with mem := [(0, 5)] }) ∧
    ∃ t, step (next (.bus 1 2 (.addrByte 0x0001 0xA9)) { sized 2 faulted with mem := [(0, 5)] }) = .next t ∧
      t.mem = [(0, 5), (1, 0xA9)] :=
  ⟨⟨by decide, by decide, by decide, [], rfl, by simp⟩, _, rfl, by decide⟩

theorem test_witness_ConstructionMeetsInvariant :
    (∃ s, construct 1 [5] true = .ok s) ∧
    ((1 : Int) ≤ 65536 ∧ (65536 : Int) ≤ 65536 ∧ (List.replicate 65536 (0x00 : Byte)).length = (65536 : Int).toNat) :=
  ⟨⟨_, rfl⟩, by omega, by omega, List.length_replicate⟩

theorem test_witness_CapacityFixedAndLegal :
    ((0 : Int) < 1 ∨ (65536 : Int) < 0) ∧ ((65537 : Int) < 1 ∨ (65536 : Int) < 65537) ∧
    ∃ t, step (next (.command 0x10 .none) (sized 1 full)) = .next t ∧ t.params.cap = 1 :=
  ⟨by omega, by omega, _, rfl, rfl⟩

/-- `FAULT` none before RESET, of a block just built and of one with every register written; and `FAULT` set. -/
theorem test_witness_ResetCommand :
    built.fault = none ∧ full.fault = none ∧ faulted.fault = some (.illegalMode 13) := ⟨rfl, rfl, rfl⟩

theorem test_witness_RegisterReads :
    (built.fault = none ∧ built.pc.valid = false ∧ built.sp.valid = false ∧ built.a.valid = false ∧
      built.x.valid = false ∧ built.y.valid = false ∧ built.p.valid = false ∧ built.imp.valid = false) ∧
    (full.fault = none ∧ full.pc.valid = true ∧ full.sp.valid = true ∧ full.a.valid = true ∧
      full.x.valid = true ∧ full.y.valid = true ∧ full.p.valid = true ∧ full.imp.valid = true) := by decide

theorem test_witness_RegisterWrites :
    full.fault = none ∧ (0x00FF : Word).toNat < 256 ∧ (0x0000 : Word).toNat < 256 ∧ ¬ (0x0100 : Word).toNat < 256 := by
  decide

theorem test_witness_FlagReads_FlagWrites :
    (built.fault = none ∧ built.p.valid = false) ∧ (full.fault = none ∧ full.p.valid = true) ∧ Flag.C ≠ Flag.N := by decide

theorem test_witness_StatusByteViews : ∀ f, flagSet 0xA5 f = flagSet 0xA5 f := fun _ => rfl

theorem test_witness_StatusBitsStoreWhatIsWritten :
    built.fault = none ∧ (State.reset.fault = none ∧ State.reset.p.valid = true) := by decide

theorem test_witness_ResolveImplicitModes : full.fault = none ∧ built.fault = none ∧ built.pc.valid = false := by decide

/-- `PC` invalid, and valid at and above the capacity, where IMM still completes. -/
theorem test_witness_ResolveImmediate :
    (built.fault = none ∧ built.pc.valid = false) ∧ ((sized 1 full).fault = none ∧ (sized 1 full).pc.valid = true) := by
  decide

/-- The three clauses of one operand byte, at the last byte of a device and the one after it. -/
theorem test_witness_OneOperand :
    (built.fault = none ∧ built.pc.valid = false) ∧
    ((sized 0x1000 (ready 0x1000 [])).fault = none ∧ (sized 0x1000 (ready 0x1000 [])).pc.valid = true ∧
      (sized 0x1000 (ready 0x1000 [])).params.cap ≤ (ready 0x1000 []).pc.value.toNat) ∧
    ((sized 0x1000 (ready 0x0FFF [])).fault = none ∧ (sized 0x1000 (ready 0x0FFF [])).pc.valid = true ∧
      (ready 0x0FFF []).pc.value.toNat < (sized 0x1000 (ready 0x0FFF [])).params.cap) := by decide

/-- The two clauses of the second operand byte; with `PC` at `0xFFFF` it lies at `0x0000`. -/
theorem test_witness_TwoOperands :
    (sized 0x1000 (ready 0x0FFF [])).params.cap ≤ ((ready 0x0FFF []).pc.value + 1).toNat ∧
    ((ready 0x0FFE []).pc.value + 1).toNat < (sized 0x1000 (ready 0x0FFE [])).params.cap ∧
    ((ready 0xFFFF []).pc.value.toNat < (ready 0xFFFF []).params.cap ∧
      ((ready 0xFFFF []).pc.value + 1).toNat < (ready 0xFFFF []).params.cap) := by decide

/-- An index register invalid and valid, with both operand bytes inside the device. -/
theorem test_witness_Indexed :
    ((ready 0x0300 []).fault = none ∧ (ready 0x0300 []).x.valid = false ∧ (ready 0x0300 []).y.valid = false) ∧
    (full.fault = none ∧ full.pc.valid = true ∧ full.x.valid = true ∧ full.y.valid = true ∧
      (full.pc.value + 1).toNat < full.params.cap) := by decide

/-- IND: the pointers `0xFFFF` and `0xFFFE` on the full device. -/
theorem test_witness_ResolveIndirect :
    full.params.cap ≤ (0xFFFF : Word).toNat + 1 ∧ (0xFFFE : Word).toNat + 1 < full.params.cap ∧
    operand1 full ++ operand0 full = (0xFFFE : Word) := by decide

/-- The clauses of a zero-page pointer with `ZP_POINTER_WRAP`: both bytes outside, the second alone, none. -/
theorem test_witness_PointerRead_wrap :
    full.params.zpPointerWrap = true ∧
    (sized 0x80 full).params.cap ≤ (0x80 : Byte).toNat ∧
    ((0x7F : Byte).toNat < (sized 0x80 full).params.cap ∧ (sized 0x80 full).params.cap ≤ ((0x7F : Byte) + 1).toNat) ∧
    ((0xFF : Byte).toNat < full.params.cap ∧ ((0xFF : Byte) + 1).toNat < full.params.cap) := by decide

/-- The clauses of a zero-page pointer without it: the word outside the device, and inside it at `0x00FF`. -/
theorem test_witness_PointerRead_noWrap :
    (noWrap full).params.zpPointerWrap = false ∧
    (sized 0x100 (noWrap full)).params.cap ≤ (0xFF : Byte).toNat + 1 ∧
    (0xFF : Byte).toNat + 1 < (noWrap full).params.cap := by decide

/-- The last location at which the two readings agree, on the smallest device that holds its pointer. -/
theorem test_witness_ZeroPagePointer :
    (0xFE : Byte) ≠ 0xFF ∧ (0xFE : Byte).toNat + 1 < (sized 0x100 full).params.cap := by decide

/-- A resolution that returns, one that raises, and each penalty due and not due. -/
theorem test_witness_CycleCounts :
    (∃ t, exec (modeInstr .absX) full = .next t ∧ t.fault = none) ∧
    (∃ t, exec (modeInstr .imm) built = .next t ∧ t.fault ≠ none) ∧
    penaltyDue .absX (indexed 0x0300 0x01 0 [(0x0300, 0xFF), (0x0301, 0x01)]) ∧
    ¬ penaltyDue .absX (indexed 0x0300 0x01 0 [(0x0300, 0xFE), (0x0301, 0x01)]) ∧
    penaltyDue .absY (indexed 0x0300 0 0xFF [(0x0300, 0x01), (0x0301, 0x12)]) ∧
    ¬ penaltyDue .absY (indexed 0x0300 0 0xFF [(0x0301, 0x12)]) ∧
    penaltyDue .indX (indexed 0x0300 0x06 0 [(0x0300, 0xFA)]) ∧
    ¬ penaltyDue .indX (indexed 0x0300 0x05 0 [(0x0300, 0xFA)]) ∧
    penaltyDue .indY (indexed 0x0300 0 0 [(0x0300, 0xFF)]) ∧ ¬ penaltyDue .indY (indexed 0x0300 0 0 [(0x0300, 0xFE)]) := by
  refine ⟨⟨_, rfl, rfl⟩, ⟨_, rfl, by decide⟩, ?_⟩
  unfold penaltyDue
  decide

theorem test_witness_PcAdvance :
    (∃ t, exec (modeInstr .ind) { full with pc := .of 16 0xFFFF } = .next t ∧ t.fault = none) ∧
    (∃ t, exec .resolveIllegal full = .next t) := ⟨⟨_, rfl, rfl⟩, _, rfl⟩

/-- One state in which every mode completes. -/
theorem test_witness_ResolutionsComplete :
    full.fault = none ∧ full.params.cap = 65536 ∧ full.pc.valid = true ∧ full.x.valid = true ∧ full.y.valid = true ∧
    operand1 full ++ operand0 full ≠ (0xFFFF : Word) := by decide

theorem test_witness_ResolutionsKeepEverythingElse :
    (∃ t, exec (modeInstr .acc) full = .next t) ∧ (∃ t, exec (modeInstr .indY) full = .next t) ∧
    (∃ t, exec (modeInstr .absX) (ready 0x0300 []) = .next t ∧ t.fault = some (.unwritten .X)) :=
  ⟨⟨_, rfl⟩, ⟨_, rfl⟩, _, rfl, rfl⟩

theorem test_witness_WriteByteCommand :
    (sized 0x1000 full).fault = none ∧ Memory.wf (sized 0x1000 full).mem = true ∧ (0x00FF : Word).toNat < 256 ∧
    (sized 0x1000 full).params.cap ≤ (0x1000 : Word).toNat ∧ (0x0FFF : Word).toNat < (sized 0x1000 full).params.cap := by
  decide

theorem test_witness_WriteWordCommand :
    (sized 0x1000 full).fault = none ∧ Memory.wf (sized 0x1000 full).mem = true ∧
    (sized 0x1000 full).params.cap ≤ (0x0FFF : Word).toNat + 1 ∧
    (0x0FFE : Word).toNat + 1 < (sized 0x1000 full).params.cap ∧ full.params.cap ≤ (0xFFFF : Word).toNat + 1 := by decide

theorem test_witness_WriteBytesCommand :
    (sized 0x1000 full).fault = none ∧ Memory.wf (sized 0x1000 full).mem = true ∧
    (([1, 2, 3] : List Byte) ≠ [] ∧
      (sized 0x1000 full).params.cap ≤ (0x0FFE : Word).toNat + ([1, 2, 3] : List Byte).length - 1) ∧
    (0x0FFD : Word).toNat + ([1, 2, 3] : List Byte).length - 1 < (sized 0x1000 full).params.cap ∧
    ([] : List Byte) = [] := by decide

theorem test_witness_PassThroughIssuesOneOperation :
    ((0x00FF : Word).toNat < 256 ∧ ∃ t, exec (.writeByte 0x0FFF 0x00FF) full = .next t) ∧
    (∃ t, exec (.writeWord 0xFFFF 0xBEEF) full = .next t) ∧ (∃ t, exec (.writeBytes 0xFFFF []) full = .next t) :=
  ⟨⟨by decide, _, rfl⟩, ⟨_, rfl⟩, _, rfl⟩

theorem test_witness_BusReads :
    (sized 0x1000 full).params.cap ≤ (0x1000 : Word).toNat ∧ (0x0FFF : Word).toNat < (sized 0x1000 full).params.cap ∧
    (sized 0x1000 full).params.cap ≤ (0x0FFF : Word).toNat + 1 ∧
    (0x0FFE : Word).toNat + 1 < (sized 0x1000 full).params.cap := by decide

theorem test_witness_BusWrites :
    Memory.wf (sized 1 full).mem = true ∧ (sized 1 full).params.cap ≤ (0x0001 : Word).toNat ∧
    (0x0000 : Word).toNat < (sized 1 full).params.cap ∧ (sized 1 full).params.cap ≤ (0x0000 : Word).toNat + 1 ∧
    (0x0000 : Word).toNat + 1 < (sized 2 full).params.cap ∧
    (([1, 2] : List Byte) ≠ [] ∧ (sized 1 full).params.cap ≤ (0x0000 : Word).toNat + ([1, 2] : List Byte).length - 1) ∧
    (0x0000 : Word).toNat + ([1, 2] : List Byte).length - 1 < (sized 2 full).params.cap ∧ ([] : List Byte) = [] := by decide

theorem test_witness_DeviceClear : 0xFFFF < full.params.cap := by decide

theorem test_witness_DeviceIndexedAccess :
    (sized 0x1000 full).params.cap ≤ 0x1000 ∧ 0x0FFF < (sized 0x1000 full).params.cap ∧
    Memory.wf (sized 0x1000 full).mem = true := by decide

theorem test_witness_LittleEndianWords :
    Memory.wf full.mem = true ∧ full.params.cap ≤ 65536 ∧ (0xFFFE : Word).toNat + 1 < full.params.cap := by decide

theorem test_witness_ReadsHaveNoSideEffect :
    (∃ t, exec (.busReadByte 0x0300) full = .next t) ∧ (∃ t, exec (.busReadWord 0xFFFF) full = .next t) ∧
    (∃ t, exec (.memIndexedRead 65536) full = .next t) := ⟨⟨_, rfl⟩, ⟨_, rfl⟩, _, rfl⟩

theorem test_witness_HistoryExplainsMemory :
    (∃ t, step (next (.command 0x71 (.addrData 0x0200 0xBEEF)) full) = .next t) ∧
    (∀ r rest i, (next (.command 0x71 (.addrData 0x0200 0xBEEF)) full).inputs = r :: rest → decode r = .ok i →
      isOutsideBus i = false) := by
  refine ⟨⟨_, rfl⟩, fun r rest i h hd => ?_⟩
  cases h
  cases hd
  decide

theorem test_witness_StepIssuesOneMastersOperations :
    (∃ t, step (next (.command 0x09 .none) full) = .next t) ∧
    (∃ t, step (next (.bus 3 1 (.addr 0xFFFE)) full) = .next t) := ⟨⟨_, rfl⟩, _, rfl⟩

theorem test_witness_OtherMasters_DeviceOperations_OneResult :
    isDeviceOp (.busWriteWord 0xFFFF 1) = true ∧ isDeviceOp (.memClear 0) = true ∧ isDeviceOp .getA = false ∧
    WellFormed (.setA 0x00FF) ∧ (∃ t, exec (.busWriteWord 0xFFFF 1) faulted = .next t) ∧
    (∃ t, exec (.setA 0x00FF) full = .next t) ∧ (∃ t, exec .getA State.reset = .next t) :=
  ⟨by decide, by decide, by decide, by decide, ⟨_, rfl⟩, ⟨_, rfl⟩, _, rfl⟩

/-- An error of a resolution after two increments, one of an accessor and one of a write. -/
theorem test_witness_ErrorLeavesStateButPc :
    (∃ t, exec .resolveAbsX (ready 0x0300 []) = .next t ∧ t.fault = some (.unwritten .X)) ∧
    (∃ t, exec .getX (ready 0x0300 []) = .next t ∧ t.fault = some (.unwritten .X)) ∧
    (∃ t, exec (.writeWord 0xFFFF 1) full = .next t ∧ t.fault = some (.busRange 0xFFFF 2 .write)) ∧
    isDeviceOp .resolveAbsX = false ∧ isDeviceOp .getX = false ∧ isDeviceOp (.writeWord 0xFFFF 1) = false :=
  ⟨⟨_, rfl, rfl⟩, ⟨_, rfl, rfl⟩, ⟨_, rfl, rfl⟩, by decide, by decide, by decide⟩

/-- Each register, and memory, changed by one of its operations. -/
theorem test_witness_StateWrittenOnlyByItsOperations :
    (∃ t, exec .resolveImm full = .next t ∧ t.pc ≠ full.pc) ∧ (∃ t, exec (.setSp 0x00FF) full = .next t ∧ t.sp ≠ full.sp) ∧
    (∃ t, exec (.setA 0x0000) full = .next t ∧ t.a ≠ full.a) ∧ (∃ t, exec (.setX 0x0000) full = .next t ∧ t.x ≠ full.x) ∧
    (∃ t, exec (.setY 0x0000) full = .next t ∧ t.y ≠ full.y) ∧
    (∃ t, exec (.setFlag true .N) full = .next t ∧ t.p ≠ full.p) ∧
    (∃ t, exec .resolveAcc full = .next t ∧ t.imp ≠ full.imp) ∧
    (∃ t, exec (.memIndexedWrite 0 1) full = .next t ∧ t.mem ≠ full.mem) := by
  refine ⟨⟨_, rfl, ?_⟩, ⟨_, rfl, ?_⟩, ⟨_, rfl, ?_⟩, ⟨_, rfl, ?_⟩, ⟨_, rfl, ?_⟩, ⟨_, rfl, ?_⟩, ⟨_, rfl, ?_⟩, _, rfl, ?_⟩ <;>
    decide

theorem test_witness_ValidBitsNeverCleared :
    (∃ t, step (next (.command 0x00 .none) full) = .next t) ∧ full.pc.valid = true ∧ full.sp.valid = true ∧
    full.a.valid = true ∧ full.x.valid = true ∧ full.y.valid = true ∧ full.p.valid = true ∧ full.imp.valid = true :=
  ⟨⟨_, rfl⟩, rfl, rfl, rfl, rfl, rfl, rfl, rfl⟩

/-- `PC` at the last byte of a device, and at `0xFFFF`, whose second operand byte lies at `0x0000`. The bytes of a word,
of a sequence and of a Clear that lie there, inside the device; a mode of two operand bytes, and one of one. -/
theorem test_witness_WritesSeenByResolution :
    ((sized 0x1000 (ready 0x0FFF [])).fault = none ∧ Memory.wf (sized 0x1000 (ready 0x0FFF [])).mem = true ∧
      (ready 0x0FFF []).pc.valid = true ∧
      (ready 0x0FFF []).pc.value.toNat < (sized 0x1000 (ready 0x0FFF [])).params.cap) ∧
    (WellFormed (.writeWord 0x0FFE 0xBEEF) ∧ bytesStored 0x1000 (.writeWord 0x0FFE 0xBEEF) = some (0x0FFE, [0xEF, 0xBE]) ∧
      0x0FFE + ([0xEF, 0xBE] : List Byte).length ≤ 0x1000 ∧ ([0xEF, 0xBE] : List Byte)[1]? = some 0xBE ∧
      0x0FFE + 1 = (ready 0x0FFF []).pc.value.toNat ∧ readsOperand .rel = true) ∧
    ((ready 0xFFFF []).pc.value.toNat < (ready 0xFFFF []).params.cap ∧
      WellFormed (.busWriteBytes 0x0000 [0xA9]) ∧ bytesStored 65536 (.busWriteBytes 0x0000 [0xA9]) = some (0, [0xA9]) ∧
      0 + ([0xA9] : List Byte).length ≤ 65536 ∧ 0 + 0 = ((ready 0xFFFF []).pc.value + 1).toNat ∧ pcBytes .ind = 2) ∧
    (bytesStored 2 (.memClear 7) = some (0, [7, 7]) ∧ 0 + ([7, 7] : List Byte).length ≤ 2) := by decide

end Sys2Proof.Tests
end

section
/-! The scope statements: the two views and the display of an Address (R5, R6), and the instruction a step performs
(R4, R70). -/

namespace Sys2Proof.Machine

/-! ### Addresses -/

/-- Page and offset are the quotient and the remainder of the flat value by 256 (R5). -/
theorem toNat_eq_pageOf_offsetOf (v : Word) : v.toNat = (pageOf v).toNat * 256 + (offsetOf v).toNat := by
  rw [pageOf_toNat, offsetOf_toNat]
  omega

theorem fromPageOffset_pageOf_offsetOf (v : Word) : fromPageOffset (pageOf v) (offsetOf v) = v := by
  apply BitVec.eq_of_toNat_eq
  rw [fromPageOffset_toNat, ← toNat_eq_pageOf_offsetOf]

/-- Settles O57: each view is computed from the other, and they give the same number. -/
theorem addressViews : Obligations.AddressViews :=
  ⟨fun p o => ⟨fromPageOffset_toNat p o, pageOf_fromPageOffset p o, offsetOf_fromPageOffset p o⟩,
    fun v => ⟨toNat_eq_pageOf_offsetOf v, fromPageOffset_pageOf_offsetOf v⟩⟩

theorem some_hexDigit : ∀ {n : Nat}, n < 16 → some (hexDigit n) = "0123456789ABCDEF".toList[n]? := by
  decide

/-- Settles O59: the digits are the base-16 digits of the value, the highest first. -/
theorem addressDisplay : Obligations.AddressDisplay := by
  refine ⟨by decide, fun v => ?_⟩
  have hv : v.toNat < 65536 := v.isLt
  have ha : v.toNat / 4096 < 16 := by omega
  have hb : v.toNat / 256 % 16 < 16 := Nat.mod_lt _ (by decide)
  have hc : v.toNat / 16 % 16 < 16 := Nat.mod_lt _ (by decide)
  have hd : v.toNat % 16 < 16 := Nat.mod_lt _ (by decide)
  refine ⟨_, _, _, _, ha, hb, hc, hd, by omega, ?_⟩
  simp only [displayAddress, List.map_cons, List.map_nil, some_hexDigit ha, some_hexDigit hb, some_hexDigit hc,
    some_hexDigit hd]

/-! ### The step -/

theorem step_of_decode {s : State} {r : Request} {rest : List Request} {i : Instr} (hs : s.inputs = r :: rest)
    (hi : decode r = .ok i) : step s = exec i (takeRequest r rest s) := by
  simp only [step, hs, hi]

/-- Settles O5: the state the instruction meets is the one `takeRequest` leaves, whichever port the transaction is on. -/
theorem stepRunsDecodedInstruction : Obligations.StepRunsDecodedInstruction := by
  intro s r rest i hs hi
  rw [step_of_decode hs hi]
  cases r with
  | command w ops => rfl
  | bus m bop ops => rfl

end Sys2Proof.Machine
end

section
/-! The state statements: the status byte and its flags (R27 to R29), how far a resolution advances `PC` (R23, R24),
what no resolution reads (R31, R152), and which operations write each register and memory (R20, R36). -/

namespace Sys2Proof.Machine

/-! ### The status byte -/

theorem flagIndex_flagOfIndex : ∀ k : BitVec 3, flagIndex (flagOfIndex k) = k := by decide

theorem flagIndex_lt (f : Flag) : (flagIndex f).toNat < 8 := (flagIndex f).isLt

/-- Bit `k` of the byte is the flag of index `k` (R28). -/
theorem flagSet_flagOfIndex (p : Byte) {k : Nat} (hk : k < 8) :
    flagSet p (flagOfIndex (BitVec.ofNat 3 k)) = p.getLsbD k := by
  rw [flagSet, flagIndex_flagOfIndex, BitVec.toNat_ofNat, Nat.mod_eq_of_lt hk]

theorem eq_of_flagSet {p q : Byte} (h : ∀ f, flagSet p f = flagSet q f) : p = q :=
  BitVec.eq_of_getLsbD_eq fun k hk => by rw [← flagSet_flagOfIndex p hk, h, flagSet_flagOfIndex q hk]

/-- Settles O18: a byte is determined by its flags, since every bit has the flag of its index. -/
theorem statusByteViews : Obligations.StatusByteViews :=
  ⟨fun _ => ⟨rfl, rfl, rfl, rfl, rfl, rfl, rfl, rfl⟩, fun _ _ => eq_of_flagSet,
    fun f => ⟨rfl, by cases f <;> rfl⟩, rfl⟩

theorem flagMask_bit (f g : Flag) : (flagMask f).getLsbD (flagIndex g).toNat = decide (g = f) := by
  cases f <;> cases g <;> rfl

/-- SET_FLAG writes its own flag alone (R136). -/
theorem flagSet_withFlag (p : Byte) (f g : Flag) (v : Bool) :
    flagSet (withFlag p f v) g = if g = f then v else flagSet p g := by
  cases v with
  | true =>
    simp only [flagSet, withFlag, if_true, BitVec.getLsbD_or, flagMask_bit]
    by_cases hg : g = f <;> simp [hg]
  | false =>
    simp only [flagSet, withFlag, Bool.false_eq_true, if_false, BitVec.getLsbD_and, BitVec.getLsbD_not, flagMask_bit]
    by_cases hg : g = f <;> simp [hg, flagIndex_lt]

/-! ### The commands that write and read `P` -/

/-- A command that returns `r`. -/
theorem runCommand_returns {s s' : State} {r : Result} {body : State → Res Result} (h : s.fault = none)
    (hb : body s = .ok r s') : runCommand s body = .next (respond r s') := by
  rw [runCommand, acceptCommand_ready h]
  simp only [hb]

/-- A byte in 16 bits is an operand of an 8-bit write, which goes on with the byte (R98). -/
theorem withByteData_setWidth (b : Byte) (s : State) (k : Byte → Out) :
    withByteData (b.setWidth 16) s k = k b := by
  have hlow : lowByte (b.setWidth 16) = b := BitVec.eq_of_toNat_eq (by
    rw [lowByte, offsetOf_toNat, ← zext16, zext16_toNat, Nat.mod_eq_of_lt b.isLt])
  have hbyte : dataIsByte (b.setWidth 16) = true := by
    rw [dataIsByte, ← zext16, zext16_toNat]
    exact decide_eq_true b.isLt
  rw [withByteData, if_pos hbyte, hlow]

theorem exec_setP (b : Byte) {s : State} (hf : s.fault = none) :
    exec (.setP (b.setWidth 16)) s = .next (respond .done { s with p := .of 8 b }) := by
  rw [exec, execSetP, withByteData_setWidth]
  exact runCommand_returns hf rfl

theorem exec_setFlag (v : Bool) (f : Flag) {s : State} (hf : s.fault = none) (hp : s.p.valid = true) :
    exec (.setFlag v f) s = .next (respond .done { s with p := .of 8 (withFlag s.p.value f v) }) := by
  rw [exec, execSetFlag]
  exact runCommand_returns hf (by rw [readReg_valid _ _ hp, Res.bind_ok])

theorem exec_reset {s : State} (hf : s.fault = none) :
    exec .reset s = .next (respond .done { s with pc := .of 16 0xFFFC, sp := .of 8 0x00, p := .of 8 0x00 }) := by
  rw [exec, execReset]
  exact runCommand_returns hf rfl

theorem exec_getP {s : State} (hf : s.fault = none) (hp : s.p.valid = true) :
    exec .getP s = .next (respond (.value (.byte s.p.value)) s) := by
  rw [exec, execGetP]
  exact runCommand_returns hf (by rw [getByte, readReg_valid _ _ hp, Res.bind_ok])

theorem exec_getFlag (f : Flag) {s : State} (hf : s.fault = none) (hp : s.p.valid = true) :
    exec (.getFlag f) s = .next (respond (.value (.byte (flagByte s.p.value f))) s) := by
  rw [exec, execGetFlag]
  exact runCommand_returns hf (by rw [readReg_valid _ _ hp, Res.bind_ok])

/-- Settles O19: each command that writes `P` leaves it valid, so the read after it returns the bits written. -/
theorem statusBitsStoreWhatIsWritten : Obligations.StatusBitsStoreWhatIsWritten := by
  refine ⟨fun s b hf => ?_, fun s v f hf hp => ?_, fun s hf => ?_⟩
  · exact ⟨_, _, exec_setP b hf, exec_getP hf rfl, by simp [Reg.of]⟩
  · exact ⟨_, _, exec_setFlag v f hf hp, exec_getFlag f hf rfl, by simp [Reg.of, flagByte, flagSet_withFlag]⟩
  · exact ⟨_, _, exec_reset hf, exec_getP hf rfl, by simp [Reg.of]⟩

/-! ### How far a resolution advances `PC` -/

/-- A resolution that returns has advanced `PC` by the bytes of its mode (R23, R24). -/
theorem resolution_pc_value {m : Mode} {s t : State} (h : exec (modeInstr m) s = .next t) (ht : t.fault = none) :
    t.pc.value = s.pc.value + BitVec.ofNat 16 (pcBytes m) := by
  rw [exec_modeInstr] at h
  obtain ⟨-, ⟨r, s', hb, rfl⟩ | ⟨e, s', -, rfl⟩⟩ := runResolve_next h
  · by_cases hm : m = .acc ∨ m = .impl
    · rw [modeBody_implicit hm] at hb
      cases hb
      rcases hm with rfl | rfl <;> simp [pcBytes]
    · obtain ⟨ha, hi⟩ := not_or.1 hm
      obtain ⟨hreads, -⟩ := (modeBody_part ha hi s).ok _ _ hb
      rw [respond_pc, hreads.pc]
  · cases ht

/-- A command that only raises an error leaves `PC` (R160, R208). -/
theorem runCommand_err_pc {s t : State} {e : ErrorRecord} (h : runCommand s (fun s => .err e s) = .next t) :
    t.pc = s.pc := by
  obtain ⟨-, ⟨r, s', hb, -⟩ | ⟨e', s', hb, rfl⟩⟩ := runCommand_next h <;> cases hb
  rfl

/-- Settles O34: the increments of a resolution that returns are its mode's bytes, and the other codes make none. -/
theorem Resolution.pcAdvance : Obligations.PcAdvance := by
  refine ⟨fun m s t h ht => ?_, fun i s t hi h => ?_⟩
  · have hpc : t.pc.value.toNat = (s.pc.value.toNat + pcBytes m) % 65536 := by
      rw [resolution_pc_value h ht, BitVec.toNat_add, BitVec.toNat_ofNat, Nat.add_mod_mod]
    cases m <;> exact hpc
  · rcases hi with rfl | rfl | rfl <;> exact runCommand_err_pc h

/-! ### What no resolution reads -/

/-- `s` with another status byte and stack pointer. -/
def withStatus (p sp : Reg 8) (s : State) : State := { s with p := p, sp := sp }

/-- The outcome of a part of a command in the changed state. -/
def Res.mapState {α : Type} (f : State → State) : Res α → Res α
  | .ok v s => .ok v (f s)
  | .err e s => .err e (f s)

/-- A part of a command that depends on neither `P` nor `SP`. -/
def IgnoresStatus {α : Type} (c : State → Res α) : Prop :=
  ∀ p sp s, c (withStatus p sp s) = (c s).mapState (withStatus p sp)

namespace IgnoresStatus

theorem bind {α β : Type} {c : State → Res α} {k : α → State → Res β} (hc : IgnoresStatus c)
    (hk : ∀ v, IgnoresStatus (k v)) : IgnoresStatus fun s => (c s).bind k := by
  intro p sp s
  simp only [hc p sp s]
  cases c s with
  | ok v s' => exact hk v p sp s'
  | err e s' => rfl

theorem pure {α : Type} (v : α) : IgnoresStatus (Res.ok v) := fun _ _ _ => rfl

theorem incPc {α : Type} (v : α) : IgnoresStatus fun s => .ok v (incPc s) := fun _ _ _ => rfl

theorem readReg {w : Nat} (sel : RegSel) (r : Reg w) : IgnoresStatus (readReg sel r) := by
  intro p sp s
  unfold Machine.readReg
  split <;> rfl

theorem busReadByte (m : Master) (a : Word) : IgnoresStatus (busReadByte m a) := by
  intro p sp s
  by_cases h : a.toNat < s.params.cap
  · rw [busReadByte_in m h, busReadByte_in m (s := withStatus p sp s) h]; rfl
  · rw [busReadByte_out m (Nat.not_lt.1 h), busReadByte_out m (s := withStatus p sp s) (Nat.not_lt.1 h)]; rfl

theorem busReadWord (m : Master) (a : Word) : IgnoresStatus (busReadWord m a) := by
  intro p sp s
  by_cases h : a.toNat + 1 < s.params.cap
  · rw [busReadWord_in m h, busReadWord_in m (s := withStatus p sp s) h]; rfl
  · rw [busReadWord_out m (Nat.not_lt.1 h), busReadWord_out m (s := withStatus p sp s) (Nat.not_lt.1 h)]; rfl

/-- A register other than `P` and `SP`, read in the state at hand. -/
theorem readOwn {w : Nat} (sel : RegSel) {reg : State → Reg w} (h : ∀ p sp s, reg (withStatus p sp s) = reg s) :
    IgnoresStatus fun s => Machine.readReg sel (reg s) s := fun p sp s => by
  simp only [h]
  exact readReg sel (reg s) p sp s

theorem fetchByte : IgnoresStatus fetchByte :=
  (readOwn .PC fun _ _ _ => rfl).bind fun pc => (busReadByte .cpu pc).bind incPc

theorem fetchWord : IgnoresStatus fetchWord :=
  fetchByte.bind fun _ => fetchByte.bind fun _ => pure _

theorem zpPointer (z : Byte) : IgnoresStatus (zpPointer z) := by
  intro p sp s
  cases h : s.params.zpPointerWrap with
  | true =>
    have hp : (withStatus p sp s).params.zpPointerWrap = true := h
    simp only [Machine.zpPointer, h, hp, if_true]
    exact (busReadByte .cpu (zext16 z)).bind (fun _ => (busReadByte .cpu (zext16 (z + 1))).bind fun _ => pure _) p sp s
  | false =>
    have hp : (withStatus p sp s).params.zpPointerWrap = false := h
    simp only [Machine.zpPointer, h, hp, Bool.false_eq_true, if_false]
    exact busReadWord .cpu (zext16 z) p sp s

theorem resolveAbsIndexed (m : Mode) (sel : RegSel) (index : Reg 8) :
    IgnoresStatus (resolveAbsIndexed m sel index) :=
  fetchWord.bind fun _ => (readReg sel index).bind fun _ => pure _

theorem resolveZpIndexed (m : Mode) (sel : RegSel) (index : Reg 8) :
    IgnoresStatus (resolveZpIndexed m sel index) :=
  fetchByte.bind fun _ => (readReg sel index).bind fun _ => pure _

/-- No resolver reads `P` or `SP` (R31, R152). -/
theorem modeBody (m : Mode) : IgnoresStatus (modeBody m) := by
  cases m with
  | acc | impl => exact fun _ _ _ => rfl
  | imm => exact (readOwn .PC fun _ _ _ => rfl).bind fun _ _ _ _ => rfl
  | abs => exact fetchWord.bind fun _ => pure _
  | zp | rel => exact fetchByte.bind fun _ => pure _
  | absX => exact fun p sp s => resolveAbsIndexed .absX .X s.x p sp s
  | absY => exact fun p sp s => resolveAbsIndexed .absY .Y s.y p sp s
  | zpX => exact fun p sp s => resolveZpIndexed .zpX .X s.x p sp s
  | zpY => exact fun p sp s => resolveZpIndexed .zpY .Y s.y p sp s
  | ind => exact fetchWord.bind fun ptr => (busReadWord .cpu ptr).bind fun _ => pure _
  | indX =>
    exact fetchByte.bind fun b => (readOwn .X fun _ _ _ => rfl).bind fun i =>
      (zpPointer (indexZp b i)).bind fun _ => pure _
  | indY =>
    exact fetchByte.bind fun z => (zpPointer z).bind fun _ => (readOwn .Y fun _ _ _ => rfl).bind fun _ => pure _

end IgnoresStatus

/-- Running a resolution keeps what its resolver ignores: `FAULT`, and the `PC` an error leaves, depend on neither. -/
theorem runResolve_withStatus {body : State → Res Result} (h : IgnoresStatus body) (p sp : Reg 8) (s : State) :
    runResolve (withStatus p sp s) body = mapNext (withStatus p sp) (runResolve s body) := by
  cases hf : s.fault with
  | none =>
    rw [runResolve, runResolve, acceptCommand_ready hf, acceptCommand_ready (s := withStatus p sp s) hf]
    simp only [h p sp s]
    cases body s with
    | ok r s' => rfl
    | err e s' => rfl
  | some e =>
    rw [runResolve, runResolve, acceptCommand_faulted hf, acceptCommand_faulted (s := withStatus p sp s) hf]
    rfl

/-- Settles O37: each resolver is built from parts that read neither register. -/
theorem resolutionsIgnoreStatus : Obligations.ResolutionsIgnoreStatus := by
  intro m s p sp
  rw [exec_modeInstr, exec_modeInstr]
  exact runResolve_withStatus (.modeBody m) p sp s

/-! ### Which operations write each register and memory -/

namespace Reads

variable {s s' : State} {n : Nat}

theorem sp (h : Reads s s' n) : s'.sp = s.sp := by rw [h.rest]
theorem a (h : Reads s s' n) : s'.a = s.a := by rw [h.rest]
theorem x (h : Reads s s' n) : s'.x = s.x := by rw [h.rest]
theorem y (h : Reads s s' n) : s'.y = s.y := by rw [h.rest]
theorem p (h : Reads s s' n) : s'.p = s.p := by rw [h.rest]
theorem mem (h : Reads s s' n) : s'.mem = s.mem := by rw [h.rest]

end Reads

/-- A mode that raises an error is one that advances `PC` (R153, R154: ACC and IMPL raise none). -/
theorem modeBody_raises {m : Mode} {s s' : State} {e : ErrorRecord} (h : modeBody m s = .err e s') :
    m ≠ .acc ∧ m ≠ .impl := by
  constructor <;> rintro rfl <;> cases h

section
variable {i : Instr} {s t : State}

/-- R21, R24, R127, R221: who writes `PC`, and that no write makes it invalid. -/
theorem exec_pc (h : exec i s = .next t) : t.pc = s.pc ∨
    ((∃ m, i = modeInstr m ∧ m ≠ .acc ∧ m ≠ .impl) ∨ (∃ d, i = .setPc d) ∨ i = .reset) ∧
      (s.pc.valid = true → t.pc.valid = true) := by
  cases exec_effect h with
  | resolution m s' r hi ha hl _ _ hr =>
    exact .inr ⟨.inl ⟨m, hi, ha, hl⟩, fun hv => by rw [respond_pc, hr.pc]; exact hv⟩
  | failedResolution m s' k e hi _ hb hr =>
    exact .inr ⟨.inl ⟨m, hi, modeBody_raises hb⟩, fun hv => by
      rw [takeError_pc, forgetPc_pc_valid, hr.pc]; exact hv⟩
  | setPc d hi => exact .inr ⟨.inr (.inl ⟨d, hi⟩), fun _ => rfl⟩
  | reset hi => exact .inr ⟨.inr (.inr hi), fun _ => rfl⟩
  | _ => exact .inl rfl

/-- R26, R128, R221: who writes `SP`. -/
theorem exec_sp (h : exec i s = .next t) :
    t.sp = s.sp ∨ ((∃ d, i = .setSp d) ∨ i = .reset) ∧ t.sp.valid = true := by
  cases exec_effect h with
  | resolution _ _ _ _ _ _ _ _ hr => exact .inl hr.sp
  | failedResolution _ _ _ _ _ _ _ hr => exact .inl hr.sp
  | setSp d hi => exact .inr ⟨.inl ⟨d, hi⟩, rfl⟩
  | reset hi => exact .inr ⟨.inr hi, rfl⟩
  | _ => exact .inl rfl

/-- R33, R129: who writes `A`. -/
theorem exec_a (h : exec i s = .next t) : t.a = s.a ∨ (∃ d, i = .setA d) ∧ t.a.valid = true := by
  cases exec_effect h with
  | resolution _ _ _ _ _ _ _ _ hr => exact .inl hr.a
  | failedResolution _ _ _ _ _ _ _ hr => exact .inl hr.a
  | setA d hi => exact .inr ⟨⟨d, hi⟩, rfl⟩
  | _ => exact .inl rfl

/-- R33, R130: who writes `X`. -/
theorem exec_x (h : exec i s = .next t) : t.x = s.x ∨ (∃ d, i = .setX d) ∧ t.x.valid = true := by
  cases exec_effect h with
  | resolution _ _ _ _ _ _ _ _ hr => exact .inl hr.x
  | failedResolution _ _ _ _ _ _ _ hr => exact .inl hr.x
  | setX d hi => exact .inr ⟨⟨d, hi⟩, rfl⟩
  | _ => exact .inl rfl

/-- R33, R131: who writes `Y`. -/
theorem exec_y (h : exec i s = .next t) : t.y = s.y ∨ (∃ d, i = .setY d) ∧ t.y.valid = true := by
  cases exec_effect h with
  | resolution _ _ _ _ _ _ _ _ hr => exact .inl hr.y
  | failedResolution _ _ _ _ _ _ _ hr => exact .inl hr.y
  | setY d hi => exact .inr ⟨⟨d, hi⟩, rfl⟩
  | _ => exact .inl rfl

/-- R30, R132, R136, R221: who writes `P`. -/
theorem exec_p (h : exec i s = .next t) :
    t.p = s.p ∨ ((∃ d, i = .setP d) ∨ (∃ v f, i = .setFlag v f) ∨ i = .reset) ∧ t.p.valid = true := by
  cases exec_effect h with
  | resolution _ _ _ _ _ _ _ _ hr => exact .inl hr.p
  | failedResolution _ _ _ _ _ _ _ hr => exact .inl hr.p
  | setP d hi => exact .inr ⟨.inl ⟨d, hi⟩, rfl⟩
  | setFlag v f hi => exact .inr ⟨.inr (.inl ⟨v, f, hi⟩), rfl⟩
  | reset hi => exact .inr ⟨.inr (.inr hi), rfl⟩
  | _ => exact .inl rfl

/-- R32, R38, R133: who writes `IMP`; a latch takes `A` with its validity. -/
theorem exec_imp (h : exec i s = .next t) : t.imp = s.imp ∨
    (i = .resolveAcc ∨ i = .resolveImpl ∨ ∃ d, i = .setImplicit d) ∧
      (s.a.valid = true → t.imp.valid = true) := by
  cases exec_effect h with
  | resolution _ _ _ _ _ _ _ _ _ him => exact .inl him
  | failedResolution _ _ _ _ _ _ _ _ _ him => exact .inl him
  | latch m hi hm =>
    subst hi
    rcases hm with rfl | rfl
    · exact .inr ⟨.inl rfl, id⟩
    · exact .inr ⟨.inr (.inl rfl), id⟩
  | setImplicit d hi => exact .inr ⟨.inr (.inr ⟨d, hi⟩), fun _ => rfl⟩
  | _ => exact .inl rfl

/-- R53 to R60, R190 to R192: who writes memory. -/
theorem exec_mem (h : exec i s = .next t) : t.mem = s.mem ∨
    IsPassThrough i ∨ IsDeviceWrite i ∨ (∃ v, i = .memClear v) ∨ (∃ n v, i = .memIndexedWrite n v) := by
  cases exec_effect h with
  | resolution _ _ _ _ _ _ _ _ hr => exact .inl hr.mem
  | failedResolution _ _ _ _ _ _ _ hr => exact .inl hr.mem
  | store _ _ _ hi => exact .inr (.inl hi)
  | deviceStore _ _ _ hi => exact .inr (.inr (.inl hi))
  | clear v hi => exact .inr (.inr (.inr (.inl ⟨v, hi⟩)))
  | indexedStore n v hi => exact .inr (.inr (.inr (.inr ⟨n, v, hi⟩)))
  | _ => exact .inl rfl

end

/-- Settles O54: each register by the cases of its own writers. -/
theorem stateWrittenOnlyByItsOperations : Obligations.StateWrittenOnlyByItsOperations := by
  intro i s t h
  refine ⟨fun hne => ((exec_pc h).resolve_left hne).1, fun hne => ((exec_sp h).resolve_left hne).1,
    fun hne => ((exec_a h).resolve_left hne).1, fun hne => ((exec_x h).resolve_left hne).1,
    fun hne => ((exec_y h).resolve_left hne).1, fun hne => ((exec_p h).resolve_left hne).1,
    fun hne => ((exec_imp h).resolve_left hne).1, fun hne => ?_⟩
  simpa only [IsPassThrough, IsDeviceWrite, or_assoc] using (exec_mem h).resolve_left hne

/-- No register that holds a defined value in `s` is invalid in `t`, `IMP` where `A` holds one too (R36, R38). -/
def KeepsDefined (s t : State) : Prop :=
  (s.pc.valid = true → t.pc.valid = true) ∧ (s.sp.valid = true → t.sp.valid = true) ∧
  (s.a.valid = true → t.a.valid = true) ∧ (s.x.valid = true → t.x.valid = true) ∧
  (s.y.valid = true → t.y.valid = true) ∧ (s.p.valid = true → t.p.valid = true) ∧
  (s.imp.valid = true → s.a.valid = true → t.imp.valid = true)

/-- A register that is kept, or written by an operation that leaves it defined, still holds a defined value. -/
theorem valid_of_kept_or_written {w : Nat} {r r' : Reg w} {ops defined : Prop}
    (h : r' = r ∨ ops ∧ defined) (hd : defined → r'.valid = true) (hv : r.valid = true) : r'.valid = true :=
  h.elim (fun he => he ▸ hv) fun hw => hd hw.2

theorem exec_keepsDefined {i : Instr} {s t : State} (h : exec i s = .next t) : KeepsDefined s t :=
  ⟨fun hv => valid_of_kept_or_written (exec_pc h) (fun hd => hd hv) hv, valid_of_kept_or_written (exec_sp h) id,
    valid_of_kept_or_written (exec_a h) id, valid_of_kept_or_written (exec_x h) id,
    valid_of_kept_or_written (exec_y h) id, valid_of_kept_or_written (exec_p h) id,
    fun hv ha => valid_of_kept_or_written (exec_imp h) (fun hd => hd ha) hv⟩

/-- Settles O55: taking a transaction and refusing one write no register, and a write leaves its register defined. -/
theorem validBitsNeverCleared : Obligations.ValidBitsNeverCleared := by
  intro s t h
  obtain ⟨-, rfl⟩ | ⟨r, rest, -, ⟨i, -, hi⟩ | ⟨e, -, rfl⟩⟩ := step_cases h
  · exact ⟨id, id, id, id, id, id, fun hv _ => hv⟩
  · exact exec_keepsDefined (s := takeRequest r rest s) hi
  · exact ⟨id, id, id, id, id, id, fun hv _ => hv⟩

end Sys2Proof.Machine
end

section
/-! The invariant of every step (R35, R56, R57, R207, R209). -/

namespace Sys2Proof.Machine

theorem Reads.params {s s' : State} {n : Nat} (h : Reads s s' n) : s'.params = s.params := by rw [h.rest]
theorem Reads.fault {s s' : State} {n : Nat} (h : Reads s s' n) : s'.fault = s.fault := by rw [h.rest]
theorem Reads.results {s s' : State} {n : Nat} (h : Reads s s' n) : s'.results = s.results := by rw [h.rest]

section
variable {i : Instr} {s t : State}

theorem exec_params (h : exec i s = .next t) : t.params = s.params := by
  cases exec_effect h with
  | resolution _ _ _ _ _ _ _ _ hr => exact hr.params
  | failedResolution _ _ _ _ _ _ _ hr => exact hr.params
  | _ => rfl

/-- What an instruction leaves in memory: the bytes of before, a sequence stored over them inside the device, or one byte
value all over (R53 to R55, R58, R60). -/
theorem exec_mem_stored (h : exec i s = .next t) : t.mem = s.mem ∨
    (∃ a bytes, (bytes = [] ∨ a + bytes.length ≤ s.params.cap) ∧ t.mem = Memory.writeSeq s.mem a bytes) ∨
    ∃ v, t.mem = Memory.filled s.params.cap v := by
  cases exec_effect h with
  | resolution _ _ _ _ _ _ _ _ hr => exact .inl hr.mem
  | failedResolution _ _ _ _ _ _ _ hr => exact .inl hr.mem
  | store _ a bytes _ _ _ hc => exact .inr (.inl ⟨a, bytes, hc, rfl⟩)
  | deviceStore _ a bytes _ _ hc => exact .inr (.inl ⟨a, bytes, hc, rfl⟩)
  | indexedStore n v _ hn => exact .inr (.inl ⟨n, [v], .inr hn, rfl⟩)
  | clear v => exact .inr (.inr ⟨v, rfl⟩)
  | _ => exact .inl rfl

theorem exec_keepsCanonical (h : exec i s = .next t) (hm : Memory.wf s.mem = true) : Memory.wf t.mem = true := by
  obtain he | ⟨a, bytes, -, he⟩ | ⟨v, he⟩ := exec_mem_stored h <;> rw [he]
  · exact hm
  · exact Memory.wf_writeSeq hm a bytes
  · exact Memory.wf_filled _ v

theorem exec_keepsInDevice (h : exec i s = .next t) (hd : ∀ c ∈ s.mem, c.1 < s.params.cap) :
    ∀ c ∈ t.mem, c.1 < s.params.cap := by
  intro c hc
  obtain he | ⟨a, bytes, hb, he⟩ | ⟨v, he⟩ := exec_mem_stored h <;> rw [he] at hc
  · exact hd c hc
  · rcases hb with rfl | hb
    · exact hd c hc
    · rcases Memory.mem_writeSeq hc with ⟨-, hlt⟩ | hc
      · exact Nat.lt_of_lt_of_le hlt hb
      · exact hd c hc
  · exact Memory.mem_filled hc

/-- What an instruction leaves on the command port: nothing new, one result that is no error, or the error it sets `FAULT`
to; the last two only where `FAULT` was none (R35, R206, R207, R209). -/
theorem exec_results (h : exec i s = .next t) :
    (t.fault = s.fault ∧ t.results = s.results) ∨
    (s.fault = none ∧ t.fault = none ∧ ∃ r, isError r = false ∧ t.results = s.results ++ [r]) ∨
    (s.fault = none ∧ ∃ e, t.fault = some e ∧ t.results = s.results ++ [.error e]) := by
  cases exec_effect h with
  | refused | deviceReply | diagnosticReply | deviceStore | clear | indexedStore => exact .inl ⟨rfl, rfl⟩
  | resolution _ _ r _ _ _ hf _ hr _ hne =>
    exact .inr (.inl ⟨hf, hr.fault.trans hf, r, hne, by rw [respond_results, hr.results]⟩)
  | failedResolution _ _ _ e _ hf _ hr =>
    exact .inr (.inr ⟨hf, e, rfl, by rw [takeError_results, forgetPc_results, hr.results]⟩)
  | failed e _ hf | failedStore _ _ _ e _ hf => exact .inr (.inr ⟨hf, e, rfl, rfl⟩)
  | latch _ _ _ hf | reset _ hf | value _ _ _ hf | setPc _ _ hf | setSp _ _ hf | setA _ _ hf | setX _ _ hf
  | setY _ _ hf | setP _ _ hf | setImplicit _ _ hf | setFlag _ _ _ hf | store _ _ _ _ _ hf =>
    exact .inr (.inl ⟨hf, hf, _, rfl, rfl⟩)

theorem exec_keepsResultsFit (h : exec i s = .next t) (hr : ResultsFit s.fault s.results) :
    ResultsFit t.fault t.results := by
  obtain ⟨hf, he⟩ | ⟨hs, hf, r, hne, he⟩ | ⟨hs, e, hf, he⟩ := exec_results h <;> rw [hf, he]
  · exact hr
  · rw [hs] at hr
    intro q hq
    rcases List.mem_append.1 hq with hq | hq
    · exact hr q hq
    · rw [List.mem_singleton.1 hq, hne]
  · rw [hs] at hr
    exact ⟨s.results, rfl, hr⟩

theorem exec_keepsInvariant (h : exec i s = .next t) (hs : MachineInv s) : MachineInv t where
  capacity := by rw [exec_params h]; exact hs.capacity
  canonical := exec_keepsCanonical h hs.canonical
  inDevice := by rw [exec_params h]; exact exec_keepsInDevice h hs.inDevice
  resultsFit := exec_keepsResultsFit h hs.resultsFit

end

theorem MachineInv.takeRequest {s : State} (h : MachineInv s) (r : Request) (rest : List Request) :
    MachineInv (takeRequest r rest s) := ⟨h.capacity, h.canonical, h.inDevice, h.resultsFit⟩

theorem MachineInv.refused {s : State} (h : MachineInv s) : MachineInv { s with refusalMark := true } :=
  ⟨h.capacity, h.canonical, h.inDevice, h.resultsFit⟩

/-- Settles O8: nothing is listed in memory and nothing has been returned. -/
theorem invariantHoldsAtReset : Obligations.InvariantHoldsAtReset where
  capacity := by decide
  canonical := rfl
  inDevice := fun _ hc => nomatch hc
  resultsFit := fun _ hr => nomatch hr

/-- Settles O9: each part of the invariant is kept by every instruction, and by taking or refusing a transaction. -/
theorem stepKeepsInvariant : Obligations.StepKeepsInvariant := by
  intro s t hs h
  obtain ⟨-, rfl⟩ | ⟨r, rest, -, ⟨i, -, hi⟩ | ⟨e, -, rfl⟩⟩ := step_cases h
  · exact hs
  · exact exec_keepsInvariant hi (hs.takeRequest r rest)
  · exact (hs.takeRequest r rest).refused

theorem step_params {s t : State} (h : step s = .next t) : t.params = s.params := by
  obtain ⟨-, rfl⟩ | ⟨r, rest, -, ⟨i, -, hi⟩ | ⟨e, -, rfl⟩⟩ := step_cases h
  · rfl
  · exact exec_params (s := takeRequest r rest s) hi
  · rfl

/-- Settles O11: construction checks the capacity, and no instruction writes the parameters. -/
theorem capacityFixedAndLegal : Obligations.CapacityFixedAndLegal :=
  ⟨rfl, fun _ _ _ hc => if_pos hc, fun _ _ h => by rw [step_params h]⟩

end Sys2Proof.Machine
end

section
/-! What the event history says of memory and of the masters (R68, R70, R74, R75). -/

namespace Sys2Proof.Machine

/-! ### Which port an instruction is on -/

/-- Every instruction the form gives has `P`, whatever its operands. -/
def FormGives (P : Instr → Prop) : WordForm → Prop
  | .plain i => P i
  | .data16 k | .data8 k => ∀ d, P (k d)
  | .addrData16 k | .addrData8 k => ∀ a d, P (k a d)
  | .addrSeq k => ∀ a l, P (k a l)

theorem attachOperands_gives {P : Instr → Prop} {w : Byte} {form : WordForm} {ops : CommandOperands} {i : Instr}
    (hP : FormGives P form) (h : attachOperands w form ops = .ok i) : P i := by
  unfold attachOperands at h
  split at h
  · cases h; exact hP
  · cases h; exact hP _
  · split at h <;> cases h; exact hP _
  · cases h; exact hP _ _
  · split at h <;> cases h; exact hP _ _
  · cases h; exact hP _ _
  · cases h

theorem resolveOfCode_isCommand : ∀ m, isDeviceOp (resolveOfCode m) = false := by decide

/-- Every row of R97 is a command of the block. -/
theorem formOfWord_isCommand {w : Byte} {form : WordForm} (h : formOfWord w = some form) :
    FormGives (isDeviceOp · = false) form := by
  unfold formOfWord at h
  split at h
  · cases h; exact resolveOfCode_isCommand _
  · split at h <;> cases h; rfl
  · unfold getForm at h; split at h <;> cases h <;> rfl
  · unfold setForm at h; split at h <;> cases h <;> exact fun _ => rfl
  · split at h <;> cases h; rfl
  · split at h <;> cases h; rfl
  · cases h; rfl
  · unfold writeForm at h; split at h <;> cases h <;> exact fun _ _ => rfl
  · cases h

/-- A command word spells a command of the block (R97). -/
theorem decode_command_isCommand {w : Byte} {ops : CommandOperands} {i : Instr} (h : decode (.command w ops) = .ok i) :
    isDeviceOp i = false := by
  simp only [decode, decodeCommand] at h
  split at h
  · cases h
  · exact attachOperands_gives (formOfWord_isCommand ‹_›) h

/-- A `bop` code spells an operation of the device (R104). -/
theorem decode_bus_isDeviceOp {m : Nat} {bop : BitVec 3} {ops : BusOperands} {i : Instr}
    (h : decode (.bus m bop ops) = .ok i) : isDeviceOp i = true := by
  simp only [decode, decodeBus] at h
  split at h <;> cases h <;> rfl

/-- The master whose transaction `i` is (R70). -/
def masterOf (i : Instr) (s : State) : Master := if isDeviceOp i then .other s.requester else .cpu

theorem masterOf_command {i : Instr} (h : isDeviceOp i = false) (s : State) : masterOf i s = .cpu := by
  simp [masterOf, h]

theorem masterOf_deviceOp {i : Instr} (h : isDeviceOp i = true) (s : State) : masterOf i s = .other s.requester := by
  simp [masterOf, h]

/-! ### Replaying events -/

theorem applyEvent_read {op : BusOp} (h : op = .readByte ∨ op = .readWord) (m : Memory) (master : Master) (a n : Nat)
    (v : Option (List Byte)) : applyEvent m ⟨master, op, a, n, v⟩ = m := by
  rcases h with rfl | rfl <;> rfl

theorem applyEvent_failed (m : Memory) (master : Master) (op : BusOp) (a n : Nat) :
    applyEvent m ⟨master, op, a, n, none⟩ = m := by cases op <;> rfl

theorem applyEvent_write {op : BusOp} (h : IsWriteOp op) (m : Memory) (master : Master) (a n : Nat)
    (bytes : List Byte) : applyEvent m ⟨master, op, a, n, some bytes⟩ = Memory.writeSeq m a bytes := by
  rcases h with rfl | rfl | rfl <;> rfl

theorem replay_reads {evs : List Event} (h : ∀ ev ∈ evs, isCpuRead ev) (m : Memory) : replay evs m = m := by
  induction evs with
  | nil => rfl
  | cons ev evs ih =>
    have hev : applyEvent m ev = m := applyEvent_read (h ev (by simp)).2 m ev.master ev.addr ev.width ev.value
    rw [replay, List.foldl_cons, hev]
    exact ih fun e he => h e (by simp [he])

/-! ### What an instruction records -/

/-- `evs` is what the history records of `i` between `s` and `t`: it explains memory, and names the master of `i`. -/
structure Records (i : Instr) (s t : State) (evs : List Event) : Prop where
  events : t.events = s.events ++ evs
  memory : isOutsideBus i = false → t.mem = replay evs s.mem
  master : ∀ ev ∈ evs, ev.master = masterOf i s
  atMostOne : isDeviceOp i = true → evs.length ≤ 1

section
variable {i : Instr} {s t : State}

/-- An instruction that issues no bus operation. -/
theorem Records.none (he : t.events = s.events) (hm : isOutsideBus i = false → t.mem = s.mem) : Records i s t [] :=
  ⟨by rw [he, List.append_nil], hm, fun _ h => (nomatch h), fun _ => Nat.zero_le 1⟩

/-- An instruction that issues one bus operation. -/
theorem Records.one {ev : Event} (he : t.events = s.events ++ [ev]) (hm : t.mem = applyEvent s.mem ev)
    (hi : ev.master = masterOf i s) : Records i s t [ev] :=
  ⟨he, fun _ => hm, fun _ h => List.mem_singleton.1 h ▸ hi, fun _ => Nat.le_refl 1⟩

/-- A resolution that has reached `s'` issues reads of the block (R152). -/
theorem Records.of_reads {m : Mode} {s' : State} {n : Nat} (h : Reads s s' n) (he : t.events = s'.events)
    (hm : t.mem = s'.mem) : ∃ evs, Records (modeInstr m) s t evs := by
  obtain ⟨evs, hevs, hreads⟩ := h.events
  refine ⟨evs, he.trans hevs, fun _ => ?_, fun ev hev => ?_, fun hd => ?_⟩
  · rw [hm, h.mem, replay_reads hreads]
  · rw [masterOf_command (modeInstr_isCommand m), (hreads ev hev).1]
  · rw [modeInstr_isCommand] at hd
    cases hd

/-- R68, R70, R74, R75: everything an instruction can record. -/
theorem exec_records (h : exec i s = .next t) : ∃ evs, Records i s t evs := by
  cases exec_effect h with
  | resolution m s' r hi _ _ _ _ hr => subst hi; exact Records.of_reads hr rfl rfl
  | failedResolution m s' k e hi _ _ hr => subst hi; exact Records.of_reads hr rfl rfl
  | store op a bytes hi hop =>
    exact ⟨_, .one rfl (applyEvent_write hop _ _ _ _ _).symm (masterOf_command hi.isCommand s).symm⟩
  | failedStore op a n e hi =>
    exact ⟨_, .one rfl (applyEvent_failed _ _ _ _ _).symm (masterOf_command hi.isCommand s).symm⟩
  | deviceReply r op a n v hi _ hop =>
    refine ⟨_, .one rfl ?_ (masterOf_deviceOp hi s).symm⟩
    rcases hop with hop | hop | rfl
    · exact (applyEvent_read (.inl hop) _ _ _ _ _).symm
    · exact (applyEvent_read (.inr hop) _ _ _ _ _).symm
    · exact (applyEvent_failed _ _ _ _ _).symm
  | deviceStore op a bytes hi hop =>
    exact ⟨_, .one rfl (applyEvent_write hop _ _ _ _ _).symm (masterOf_deviceOp hi.isDeviceOp s).symm⟩
  | clear v hi => subst hi; exact ⟨[], .none rfl fun hb => nomatch hb⟩
  | indexedStore n v hi => subst hi; exact ⟨[], .none rfl fun hb => nomatch hb⟩
  | _ => exact ⟨[], .none rfl fun _ => rfl⟩

end

/-- Settles O48: the events of the decoded instruction explain memory, and nothing else of a step touches either. -/
theorem historyExplainsMemory : Obligations.HistoryExplainsMemory := by
  intro s t h hbus
  obtain ⟨-, rfl⟩ | ⟨r, rest, hr, ⟨i, hd, hi⟩ | ⟨e, -, rfl⟩⟩ := step_cases h
  · exact ⟨[], (List.append_nil _).symm, rfl⟩
  · obtain ⟨evs, hrec⟩ := exec_records hi
    exact ⟨evs, hrec.events, hrec.memory (hbus r rest i hr hd)⟩
  · exact ⟨[], (List.append_nil _).symm, rfl⟩

/-- Settles O49: the decoded instruction is the block's on the command port and another master's on the bus port. -/
theorem stepIssuesOneMastersOperations : Obligations.StepIssuesOneMastersOperations := by
  intro s t r rest hr h
  obtain ⟨hn, -⟩ | ⟨r', rest', hr', ⟨i, hd, hi⟩ | ⟨e, -, rfl⟩⟩ := step_cases h
  · rw [hr] at hn
    cases hn
  · obtain ⟨rfl, rfl⟩ := List.cons.inj (hr.symm.trans hr')
    obtain ⟨evs, hrec⟩ := exec_records hi
    refine ⟨evs, hrec.events, fun ev hev => ?_, ?_⟩
    · rw [hrec.master ev hev]
      cases r with
      | command w ops => exact masterOf_command (decode_command_isCommand hd) _
      | bus m bop ops => exact masterOf_deviceOp (decode_bus_isDeviceOp hd) _
    · rintro m bop ops rfl
      exact hrec.atMostOne (decode_bus_isDeviceOp hd)
  · exact ⟨[], (List.append_nil _).symm, fun _ he => (nomatch he), fun _ _ _ _ => Nat.zero_le 1⟩

end Sys2Proof.Machine
end

section
/-! The operations of the bus device (R51 to R61, R64, R69, R70, R214). -/

namespace Sys2Proof.Machine

section
variable {s : State}

/-! ### Reads -/

theorem busReadByte_answers {a : Word} {b : Byte} (h : a.toNat < s.params.cap) (hb : Memory.read s.mem a.toNat = b) :
    Answers (.busReadByte a) s [⟨.other s.requester, .readByte, a.toNat, 1, some [b]⟩] (.byte b) := by
  simp only [Answers, exec, execBusReadByte, runDevice, busReadByte_in _ h, hb, Res.bind_ok]
  rfl

theorem busReadByte_answersError {a : Word} (h : s.params.cap ≤ a.toNat) :
    Answers (.busReadByte a) s [⟨.other s.requester, .readByte, a.toNat, 1, none⟩]
      (.error (.busRange a.toNat 1 .read)) := by
  simp only [Answers, exec, execBusReadByte, runDevice, busReadByte_out _ h, Res.bind_err]
  rfl

theorem busReadWord_answers {a : Word} {lo hi : Byte} (h : a.toNat + 1 < s.params.cap)
    (hlo : Memory.read s.mem a.toNat = lo) (hhi : Memory.read s.mem (a.toNat + 1) = hi) :
    Answers (.busReadWord a) s [⟨.other s.requester, .readWord, a.toNat, 2, some [lo, hi]⟩]
      (.word (fromPageOffset hi lo)) := by
  simp only [Answers, exec, execBusReadWord, runDevice, busReadWord_in _ h, hlo, hhi, Res.bind_ok]
  rfl

theorem busReadWord_answersError {a : Word} (h : s.params.cap ≤ a.toNat + 1) :
    Answers (.busReadWord a) s [⟨.other s.requester, .readWord, a.toNat, 2, none⟩]
      (.error (.busRange a.toNat 2 .read)) := by
  simp only [Answers, exec, execBusReadWord, runDevice, busReadWord_out _ h, Res.bind_err]
  rfl

theorem memIndexedRead_answers {n : Nat} (h : n < s.params.cap) :
    Answers (.memIndexedRead n) s [] (.byte (Memory.read s.mem n)) := by
  simp only [Answers, exec, execMemIndexedRead, runDevice, deviceRead, if_pos h, Res.bind_ok, List.append_nil]
  rfl

theorem memIndexedRead_answersError {n : Nat} (h : s.params.cap ≤ n) :
    Answers (.memIndexedRead n) s [] (.error (.busRange n 1 .read)) := by
  simp only [Answers, exec, execMemIndexedRead, runDevice, deviceRead, if_neg (Nat.not_lt.2 h), Res.bind_err,
    List.append_nil]
  rfl

/-! ### Writes -/

/-- A bus write of another master inside the device stores all its bytes (R53 to R55, R75). -/
theorem runDevice_busWrite_in (op : BusOp) {a : Word} {bytes : List Byte}
    (h : bytes = [] ∨ a.toNat + bytes.length ≤ s.params.cap) :
    runDevice s (fun s => (busWrite (.other s.requester) op a bytes s).bind fun _ s => .ok .done s) = .next { s with
      mem := Memory.writeSeq s.mem a.toNat bytes
      events := s.events ++ [⟨.other s.requester, op, a.toNat, bytes.length, some bytes⟩]
      replies := s.replies ++ [.done] } := by
  simp only [runDevice, busWrite_in _ _ h, Res.bind_ok]
  rfl

/-- A bus write of another master that reaches outside the device stores nothing (R53 to R55, R75). -/
theorem runDevice_busWrite_out (op : BusOp) {a : Word} {bytes : List Byte} (hne : bytes ≠ [])
    (h : s.params.cap < a.toNat + bytes.length) :
    runDevice s (fun s => (busWrite (.other s.requester) op a bytes s).bind fun _ s => .ok .done s) = .next { s with
      events := s.events ++ [⟨.other s.requester, op, a.toNat, bytes.length, none⟩]
      replies := s.replies ++ [.error (.busRange a.toNat bytes.length .write)] } := by
  simp only [runDevice, busWrite_out _ _ hne h, Res.bind_err]
  rfl

theorem memIndexedWrite_answersError {n : Nat} (v : Byte) (h : s.params.cap ≤ n) :
    Answers (.memIndexedWrite n v) s [] (.error (.busRange n 1 .write)) := by
  simp only [Answers, exec, execMemIndexedWrite, runDevice, deviceWrite, if_neg (Nat.not_lt.2 h), Res.bind_err,
    List.append_nil]
  rfl

theorem exec_memIndexedWrite_in {n : Nat} (v : Byte) (h : n < s.params.cap) :
    exec (.memIndexedWrite n v) s =
      .next { s with mem := Memory.writeSeq s.mem n [v], replies := s.replies ++ [.done] } := by
  simp only [exec, execMemIndexedWrite, runDevice, deviceWrite, if_pos h, Res.bind_ok]
  rfl

end

/-- Settles O42: by the range check of each read. -/
theorem busReads : Obligations.BusReads := by
  intro s addr
  refine ⟨fun h => answersError_of (busReadByte_answersError h), fun h => busReadByte_answers h rfl,
    fun h => answersError_of (busReadWord_answersError h), fun h => ⟨_, ?_, busReadWord_answers h rfl rfl⟩⟩
  rw [fromPageOffset_toNat]

/-- Settles O43: the three writes share one store, which checks the whole range before any byte. -/
theorem busWrites : Obligations.BusWrites := by
  intro s addr w v seq hm
  refine ⟨fun h => ?_, fun h => ?_, fun h => ?_, fun h => ?_, fun hne h => ?_, fun h => ?_⟩
  · exact answersError_of (runDevice_busWrite_out .writeByte (List.cons_ne_nil _ _) (Nat.lt_succ_of_le h))
  · exact ⟨_, stored_writeSeq hm _ _, runDevice_busWrite_in .writeByte (.inr h)⟩
  · exact answersError_of (runDevice_busWrite_out .writeWord (List.cons_ne_nil _ _) (Nat.lt_succ_of_le h))
  · exact ⟨_, stored_writeSeq hm _ _, runDevice_busWrite_in .writeWord (.inr h)⟩
  · have hpos := List.length_pos_iff.2 hne
    exact answersError_of (runDevice_busWrite_out .writeBytes hne (by omega))
  · have hc : seq = [] ∨ addr.toNat + seq.length ≤ s.params.cap := h.imp_right (by omega)
    exact ⟨_, stored_writeSeq hm _ _, fun hnil => by rw [hnil, Memory.writeSeq],
      runDevice_busWrite_in .writeBytes hc⟩

/-- Settles O44: Clear fills the device, and a command word spells only commands of the block. -/
theorem Device.deviceClear : Obligations.DeviceClear :=
  ⟨fun _ v => ⟨_, fun _ ha => Memory.read_filled v ha, rfl⟩, fun _ _ _ h => nomatch decode_command_isCommand h⟩

/-- Settles O45: by the range check of the index; a command word spells only commands of the block. -/
theorem deviceIndexedAccess : Obligations.DeviceIndexedAccess := by
  refine ⟨fun w ops i v => ⟨fun h => (nomatch decode_command_isCommand h), fun h => (nomatch decode_command_isCommand h)⟩,
    fun s i v => ⟨fun h => ⟨?_, ?_⟩, memIndexedRead_answers, fun h hm => ?_⟩⟩
  · exact answersError_of (memIndexedRead_answersError h)
  · exact answersError_of (memIndexedWrite_answersError v h)
  · exact ⟨_, stored_writeSeq hm i [v], exec_memIndexedWrite_in v h⟩

/-- Settles O46: the store puts the low byte at the lower address, and each read returns what is stored there. -/
theorem littleEndianWords : Obligations.LittleEndianWords := by
  intro s addr w hm hcap h
  have hsucc : (addr + 1).toNat = addr.toNat + 1 := by
    rw [BitVec.toNat_add, show (1 : Word).toNat = 1 from rfl, Nat.mod_eq_of_lt (by omega)]
  obtain ⟨hstored, -⟩ := stored_writeSeq hm addr.toNat [lowByte w, highByte w]
  have hlow : Memory.read (Memory.writeSeq s.mem addr.toNat [lowByte w, highByte w]) addr.toNat = lowByte w :=
    hstored 0 _ rfl
  have hhigh : Memory.read (Memory.writeSeq s.mem addr.toNat [lowByte w, highByte w]) (addr.toNat + 1) = highByte w :=
    hstored 1 _ rfl
  have hword : fromPageOffset (highByte w) (lowByte w) = w := fromPageOffset_pageOf_offsetOf w
  refine ⟨_, _, _, _, runDevice_busWrite_in .writeWord (.inr h), busReadByte_answers (Nat.lt_of_succ_lt h) hlow,
    List.append_assoc _ _ _, busReadByte_answers (hsucc ▸ h) (hsucc ▸ hhigh), List.append_assoc _ _ _,
    busReadWord_answers h hlow hhigh, ?_⟩
  simp only [hword, List.append_assoc, List.cons_append, List.nil_append]

/-! ### Reads have no side effect -/

/-- An operation that answers alike before and after its own answer: it changes the history and the answers alone, and
repeats its answer. -/
theorem repeats_of_answers {i : Instr} {s t : State} {evs evs' : List Event} {r : BusReply} (h : exec i s = .next t)
    (hfirst : Answers i s evs r)
    (hagain : Answers i { s with events := s.events ++ evs, replies := s.replies ++ [r] } evs' r) :
    t = { s with events := t.events, replies := t.replies } ∧
      ∃ r u, t.replies = s.replies ++ [r] ∧ exec i t = .next u ∧ u.replies = s.replies ++ [r, r] := by
  cases h.symm.trans hfirst
  exact ⟨rfl, r, _, rfl, hagain, List.append_assoc _ _ _⟩

/-- Settles O47: what a read answers depends on neither the history nor the earlier answers. -/
theorem readsHaveNoSideEffect : Obligations.ReadsHaveNoSideEffect := by
  rintro i s t (⟨a, rfl⟩ | ⟨a, rfl⟩ | ⟨n, rfl⟩) h
  · by_cases hc : a.toNat < s.params.cap
    · exact repeats_of_answers h (busReadByte_answers hc rfl) (busReadByte_answers hc rfl)
    · have hc := Nat.not_lt.1 hc
      exact repeats_of_answers h (busReadByte_answersError hc) (busReadByte_answersError hc)
  · by_cases hc : a.toNat + 1 < s.params.cap
    · exact repeats_of_answers h (busReadWord_answers hc rfl rfl) (busReadWord_answers hc rfl rfl)
    · have hc := Nat.not_lt.1 hc
      exact repeats_of_answers h (busReadWord_answersError hc) (busReadWord_answersError hc)
  · by_cases hc : n < s.params.cap
    · exact repeats_of_answers h (memIndexedRead_answers hc) (memIndexedRead_answers hc)
    · have hc := Nat.not_lt.1 hc
      exact repeats_of_answers h (memIndexedRead_answersError hc) (memIndexedRead_answersError hc)

/-! ### The device and the block -/

theorem runDevice_completes (s : State) (body : State → Res BusReply) : ∃ t, runDevice s body = .next t := by
  unfold runDevice
  split <;> exact ⟨_, rfl⟩

theorem deviceOp_runs {i : Instr} (hi : isDeviceOp i = true) : ∃ body, ∀ s, exec i s = runDevice s body := by
  cases i with
  | busReadByte | busReadWord | busWriteByte | busWriteWord | busWriteBytes | memIndexedRead | memIndexedWrite =>
    exact ⟨_, fun _ => rfl⟩
  | memClear v => exact ⟨fun s => (deviceClear v s).bind fun _ s => .ok .done s, fun _ => rfl⟩
  | _ => cases hi

/-- An operation of another master gives one answer, and changes beside it memory and the history alone (R70). -/
theorem deviceOp_effect {i : Instr} {s t : State} (hi : isDeviceOp i = true) (h : exec i s = .next t) :
    t = { s with mem := t.mem, events := t.events, replies := t.replies } ∧ ∃ r, t.replies = s.replies ++ [r] := by
  cases exec_effect h with
  | deviceReply | diagnosticReply | deviceStore | clear | indexedStore => exact ⟨rfl, _, rfl⟩
  | refused _ hc | failed _ hc | value _ hc => exact nomatch hi.symm.trans hc
  | resolution m _ _ hm | failedResolution m _ _ _ hm | latch m hm =>
    subst hm
    exact nomatch hi.symm.trans (modeInstr_isCommand m)
  | store _ _ _ hp | failedStore _ _ _ _ hp => exact nomatch hi.symm.trans hp.isCommand
  | reset hc | setPc _ hc | setSp _ hc | setA _ hc | setX _ hc | setY _ hc | setP _ hc | setImplicit _ hc
  | setFlag _ _ hc => subst hc; cases hi

/-- Settles O50: the effects of a device operation lie in memory, the history and the answers. -/
theorem otherMastersLeaveTheBlock : Obligations.OtherMastersLeaveTheBlock := fun _ _ _ hi h => (deviceOp_effect hi h).1

/-- Settles O51: the device answers, whether its operation returns or raises `BusRange`. -/
theorem deviceOperationsComplete : Obligations.DeviceOperationsComplete := by
  intro i s hi
  obtain ⟨body, hbody⟩ := deviceOp_runs hi
  obtain ⟨t, ht⟩ := runDevice_completes s body
  have h : exec i s = .next t := (hbody s).trans ht
  obtain ⟨-, r, hr⟩ := deviceOp_effect hi h
  exact ⟨t, r, h, hr⟩

end Sys2Proof.Machine
end

section
/-! What a resolution reads of the bytes stored before it (R72, R225). -/

namespace Sys2Proof.Machine

/-! ### What a storing instruction leaves -/

section
variable {s t : State} {a n : Nat} {bytes : List Byte} {b : Byte}

theorem Stores.fault (h : Stores s t a bytes) : t.fault = s.fault := by rw [h.rest]
theorem Stores.pc (h : Stores s t a bytes) : t.pc = s.pc := by rw [h.rest]
theorem Stores.params (h : Stores s t a bytes) : t.params = s.params := by rw [h.rest]

/-- A byte stored at `PC` is the first operand byte (R91). -/
theorem Stores.operand0 (h : Stores s t a bytes) (hb : bytes[n]? = some b) (ha : a + n = s.pc.value.toNat) :
    operand0 t = b := by
  rw [Machine.operand0, h.pc, ← ha]
  exact h.stored n b hb

/-- A byte stored at `(PC + 1) mod 65536` is the second operand byte (R91). -/
theorem Stores.operand1 (h : Stores s t a bytes) (hb : bytes[n]? = some b) (ha : a + n = (s.pc.value + 1).toNat) :
    operand1 t = b := by
  rw [Machine.operand1, h.pc, ← ha]
  exact h.stored n b hb

end

/-! ### What a resolution reads first -/

section
variable {s : State} (hf : s.fault = none) (hv : s.pc.valid = true) (hc : s.pc.value.toNat < s.params.cap)
include hf hv hc

/-- Every mode that reads operand bytes reads the first as its first access (R152). -/
theorem resolution_reads_operand0 {m : Mode} (hm : readsOperand m = true) :
    ∃ u evs, exec (modeInstr m) s = .next u ∧
      u.events = s.events ++ byteRead s.pc.value.toNat (operand0 s) :: evs := by
  obtain ⟨n, rest, hbody, hrest⟩ := modeBody_fetchByte hm s
  rw [fetchByte_in hv hc, Res.bind_ok] at hbody
  obtain ⟨u, evs, hu, he⟩ := runResolve_events hf (hbody ▸ hrest _ _)
  exact ⟨u, evs, (exec_modeInstr m s).trans hu, he.trans (List.append_assoc _ _ _)⟩

/-- Every mode of two operand bytes reads the second as its second access (R152). -/
theorem resolution_reads_operand1 (hc' : (s.pc.value + 1).toNat < s.params.cap) {m : Mode} (hm : pcBytes m = 2) :
    ∃ u evs, exec (modeInstr m) s = .next u ∧
      u.events = s.events ++ byteRead s.pc.value.toNat (operand0 s) ::
        byteRead (s.pc.value + 1).toNat (operand1 s) :: evs := by
  obtain ⟨rest, hbody, hrest⟩ := modeBody_fetchWord hm s
  rw [fetchWord_in hv hc hc', Res.bind_ok] at hbody
  obtain ⟨u, evs, hu, he⟩ := runResolve_events hf (hbody ▸ hrest _ _)
  exact ⟨u, evs, (exec_modeInstr m s).trans hu, he.trans (List.append_assoc _ _ _)⟩

/-- RESOLVE(ZP) returns the operand byte as an Address of page 0 (R157). -/
theorem exec_resolveZp_results : ∃ u, exec .resolveZp s = .next u ∧
    u.results = s.results ++ [.addr ((operand0 s).setWidth 16) 2] := by
  have hbody : resolveZeroPage s = .ok (.addr (zpAddress (operand0 s)) 2)
      (incPc (recordEvent .cpu .readByte s.pc.value.toNat 1 (some [operand0 s]) s)) := by
    rw [resolveZeroPage, fetchByte_in hv hc, Res.bind_ok]
    rfl
  have haddr : zpAddress (operand0 s) = (operand0 s).setWidth 16 := BitVec.eq_of_toNat_eq (by
    rw [zpAddress, fromPageOffset_toNat, ← zext16, zext16_toNat]
    exact Nat.zero_add _)
  exact ⟨_, runResolve_returns hf hbody, by rw [respond_results, haddr]; rfl⟩

end

/-- A pass-through byte write inside the device (R190). -/
theorem exec_writeByte_in (b : Byte) {a : Word} {s : State} (hf : s.fault = none) (hc : a.toNat < s.params.cap) :
    exec (.writeByte a (b.setWidth 16)) s = .next (respond .done
      (recordEvent .cpu .writeByte a.toNat 1 (some [b]) { s with mem := Memory.writeSeq s.mem a.toNat [b] })) := by
  rw [exec, execWriteByte, withByteData_setWidth]
  exact runCommand_returns hf (by rw [busWriteByte, busWrite_in (bytes := [b]) _ _ (.inr hc), Res.bind_ok]; rfl)

/-- RESOLVE(ZP), after a write that left the byte `b` at `PC`, returns `b` (R72, R157). -/
theorem resolveZp_after_write {i : Instr} {s t : State} {b : Byte} {rs : List Result} (hi : exec i s = .next t)
    (hf : t.fault = none) (hv : t.pc.valid = true) (hc : t.pc.value.toNat < t.params.cap) (hb : operand0 t = b)
    (hr : t.results = s.results ++ rs) :
    ∃ t u, exec i s = .next t ∧ exec .resolveZp t = .next u ∧
      u.results = s.results ++ (rs ++ [.addr (b.setWidth 16) 2]) := by
  obtain ⟨u, hu, hres⟩ := exec_resolveZp_results hf hv hc
  exact ⟨t, u, hi, hu, by rw [hres, hr, hb, List.append_assoc]⟩

/-- Settles O56: the stored bytes are the operand bytes of the next state, and every mode fetches its own first. -/
theorem writesSeenByResolution : Obligations.WritesSeenByResolution := by
  intro s hf hm hv hc
  refine ⟨fun i a bytes hi hb hin => ?_, fun b => ?_⟩
  · obtain ⟨t, ht, hst⟩ := exec_stores hf hm hi hb hin
    have hft : t.fault = none := hst.fault.trans hf
    have hvt : t.pc.valid = true := by rw [hst.pc]; exact hv
    have hct : t.pc.value.toNat < t.params.cap := by rw [hst.pc, hst.params]; exact hc
    refine ⟨t, ht, fun n b hn => ⟨fun ha => ?_, fun ha => ?_⟩⟩
    · have h0 := hst.operand0 hn ha
      refine ⟨h0, fun m hm => ?_⟩
      rw [← h0, ← hst.pc]
      exact resolution_reads_operand0 hft hvt hct hm
    · have h1 := hst.operand1 hn ha
      have hlt : n < bytes.length := (List.getElem?_eq_some_iff.1 hn).1
      have hct' : (t.pc.value + 1).toNat < t.params.cap := by rw [hst.pc, hst.params, ← ha]; omega
      refine ⟨h1, fun m hm => ?_⟩
      rw [← h1, ← hst.pc]
      exact resolution_reads_operand1 hft hvt hct hct' hm
  · have hread : Memory.read (Memory.writeSeq s.mem s.pc.value.toNat [b]) s.pc.value.toNat = b :=
      (stored_writeSeq hm s.pc.value.toNat [b]).1 0 b rfl
    exact ⟨resolveZp_after_write (exec_writeByte_in b hf hc) hf hv hc hread rfl,
      resolveZp_after_write (rs := []) (runDevice_busWrite_in .writeByte (.inr hc)) hf hv hc hread
        (List.append_nil _).symm⟩

end Sys2Proof.Machine
end

section
/-! The encoding statements: every instruction has one spelling (R94 to R98, R104), the reserved words are those of R99,
and what a command returns (R100 to R102, R160); the operand fields of R92 and the codes of R96 and R101. -/

namespace Sys2Proof.Machine

/-! ### From instructions to words -/

/-- A word that is not reserved takes the operands of its form (R97, R98). -/
theorem decode_of_form {w : Byte} {form : WordForm} (h : formOfWord w = some form) (ops : CommandOperands) :
    decode (.command w ops) = attachOperands w form ops := by
  simp only [decode, decodeCommand, h]

theorem decode_data8 {w : Byte} {k : Word → Instr} {d : Word} (h : formOfWord w = some (.data8 k))
    (hd : dataIsByte d = true) : decode (.command w (.data d)) = .ok (k d) := by
  rw [decode_of_form h, attachOperands, if_pos hd]

theorem decode_addrData8 {w : Byte} {k : Word → Word → Instr} {a d : Word} (h : formOfWord w = some (.addrData8 k))
    (hd : dataIsByte d = true) : decode (.command w (.addrData a d)) = .ok (k a d) := by
  rw [decode_of_form h, attachOperands, if_pos hd]

/-- Settles O2: an 8-bit write is well-formed where its operand is a byte, a flag operation carries the index of its flag,
and every other instruction has one word. -/
theorem decodeOfEncode : Obligations.DecodeOfEncode := by
  intro m i hi
  cases i with
  | setSp | setA | setX | setY | setP | setImplicit => exact decode_data8 rfl hi
  | writeByte => exact decode_addrData8 rfl hi
  | getFlag f | hasFlag f => cases f <;> rfl
  | setFlag v f => cases v <;> cases f <;> rfl
  | _ => rfl

/-- Settles O1: each word is a row of R97 or a code of R104. -/
theorem decodesSpecWords : Obligations.DecodesSpecWords :=
  ⟨fun m => by cases m <;> rfl, rfl, rfl, rfl, rfl, rfl, rfl, rfl, rfl, rfl, rfl, rfl⟩

/-! ### From words to instructions -/

/-- A command word is its class and its field (R97). -/
theorem word_eq_class_field {w : Byte} {c f : BitVec 4} (hc : classOf w = c) (hf : fieldOf w = f) : w = c ++ f := by
  rw [← hc, ← hf]
  exact (BitVec.extractLsb'_append_extractLsb' (w := 4) (len := 4)).symm

/-- The field of a flag operation is one bit and the index of its flag (R95, R97). -/
theorem fieldOf_eq_bit_flagIndex (w : Byte) :
    fieldOf w = BitVec.ofBool (w.getLsbD 3) ++ flagIndex (flagOfIndex (w.extractLsb' 0 3)) := by
  rw [flagIndex_flagOfIndex]
  refine BitVec.eq_of_getLsbD_eq fun k hk => ?_
  rw [fieldOf, BitVec.getLsbD_append]
  split
  · simp [*]
  · obtain rfl : k = 3 := by omega
    simp

theorem word_eq_class_bit_flagIndex {w : Byte} {c : BitVec 4} {b : Bool} (hc : classOf w = c) (hb : w.getLsbD 3 = b) :
    w = c ++ (BitVec.ofBool b ++ flagIndex (flagOfIndex (w.extractLsb' 0 3))) :=
  word_eq_class_field hc (hb ▸ fieldOf_eq_bit_flagIndex w)

/-- `w` spells every instruction of this form, with the operands the instruction holds, and the instruction is well-formed
where they are those of R98. -/
def FormSpells (w : Byte) : WordForm → Prop
  | .plain i => WellFormed i ∧ encode i = .command w .none
  | .data16 k => ∀ d, WellFormed (k d) ∧ encode (k d) = .command w (.data d)
  | .data8 k => ∀ d, wellFormed (k d) = dataIsByte d ∧ encode (k d) = .command w (.data d)
  | .addrData16 k => ∀ a d, WellFormed (k a d) ∧ encode (k a d) = .command w (.addrData a d)
  | .addrData8 k => ∀ a d, wellFormed (k a d) = dataIsByte d ∧ encode (k a d) = .command w (.addrData a d)
  | .addrSeq k => ∀ a l, WellFormed (k a l) ∧ encode (k a l) = .command w (.addrSeq a l)

theorem attachOperands_spells {w : Byte} {form : WordForm} {ops : CommandOperands} {i : Instr} (hw : FormSpells w form)
    (h : attachOperands w form ops = .ok i) : WellFormed i ∧ encode i = .command w ops := by
  unfold attachOperands at h
  split at h
  · cases h; exact hw
  · cases h; exact hw _
  · split at h <;> cases h
    obtain ⟨hwf, henc⟩ := hw _
    exact ⟨hwf.trans ‹_›, henc⟩
  · cases h; exact hw _ _
  · split at h <;> cases h
    obtain ⟨hwf, henc⟩ := hw _ _
    exact ⟨hwf.trans ‹_›, henc⟩
  · cases h; exact hw _ _
  · cases h

theorem resolveOfCode_wellFormed : ∀ c, WellFormed (resolveOfCode c) := by decide

theorem encode_resolveOfCode : ∀ c : BitVec 4, encode (resolveOfCode c) = .command (0x0#4 ++ c) .none := by decide

theorem encode_getFlag (f : Flag) :
    encode (.getFlag f) = .command (0x4#4 ++ (BitVec.ofBool false ++ flagIndex f)) .none := by cases f <;> rfl

theorem encode_hasFlag (f : Flag) :
    encode (.hasFlag f) = .command (0x5#4 ++ (BitVec.ofBool false ++ flagIndex f)) .none := by cases f <;> rfl

/-- Each row of R97 spells its instructions. -/
theorem formOfWord_spells {w : Byte} {form : WordForm} (h : formOfWord w = some form) : FormSpells w form := by
  unfold formOfWord at h
  split at h <;> rename_i hc
  · cases h
    exact ⟨resolveOfCode_wellFormed _, by rw [encode_resolveOfCode, ← word_eq_class_field hc rfl]⟩
  · split at h <;> cases h
    obtain rfl := word_eq_class_field hc ‹_›
    exact ⟨rfl, rfl⟩
  · unfold getForm at h
    split at h <;> cases h <;> obtain rfl := word_eq_class_field hc ‹_› <;> exact ⟨rfl, rfl⟩
  · unfold setForm at h
    split at h <;> cases h <;> obtain rfl := word_eq_class_field hc ‹_› <;> exact fun _ => ⟨rfl, rfl⟩
  · split at h <;> cases h
    exact ⟨rfl, by rw [encode_getFlag, ← word_eq_class_bit_flagIndex hc (Bool.eq_false_iff.2 ‹_›)]⟩
  · split at h <;> cases h
    exact ⟨rfl, by rw [encode_hasFlag, ← word_eq_class_bit_flagIndex hc (Bool.eq_false_iff.2 ‹_›)]⟩
  · cases h
    exact ⟨rfl, by rw [encode, encodeAs, ← word_eq_class_bit_flagIndex hc rfl]⟩
  · unfold writeForm at h
    split at h <;> cases h <;> obtain rfl := word_eq_class_field hc ‹_› <;> exact fun _ _ => ⟨rfl, rfl⟩
  · cases h

/-- Each code of R104 spells its operation. -/
theorem decodeBus_spells (m : Nat) {bop : BitVec 3} {ops : BusOperands} {i : Instr} (h : decodeBus bop ops = .ok i) :
    WellFormed i ∧ encodeAs m i = .bus m bop ops := by
  unfold decodeBus at h
  split at h <;> cases h <;> exact ⟨rfl, rfl⟩

/-- Settles O3: what decodes is a row of R97 or a code of R104, and each of them spells what it decodes to. -/
theorem encodeOfDecode : Obligations.EncodeOfDecode := by
  intro r i h
  cases r with
  | command w ops =>
    simp only [decode, decodeCommand] at h
    split at h
    · cases h
    · obtain ⟨hwf, henc⟩ := attachOperands_spells (formOfWord_spells ‹_›) h
      exact ⟨hwf, 0, henc.symm⟩
  | bus m bop ops =>
    obtain ⟨hwf, henc⟩ := decodeBus_spells m h
    exact ⟨hwf, m, henc.symm⟩

/-! ### Reserved commands -/

/-- The words without a row in R97 are those R99 lists: each of the 256 words is looked up. -/
theorem formOfWord_eq_none : ∀ w, formOfWord w = none ↔ ReservedWord w := by
  unfold ReservedWord
  decide

theorem decode_reservedWord {w : Byte} (h : ReservedWord w) (ops : CommandOperands) :
    decode (.command w ops) = .error (.reservedWord w) := by
  simp only [decode, decodeCommand, (formOfWord_eq_none w).2 h]

/-- Every form has operands that fit it. -/
theorem attachOperands_completes (w : Byte) (form : WordForm) : ∃ ops i, attachOperands w form ops = .ok i := by
  cases form with
  | plain => exact ⟨.none, _, rfl⟩
  | data16 | data8 => exact ⟨.data 0, _, rfl⟩
  | addrData16 | addrData8 => exact ⟨.addrData 0 0, _, rfl⟩
  | addrSeq => exact ⟨.addrSeq 0 [], _, rfl⟩

theorem decode_notReserved {w : Byte} (h : ¬ ReservedWord w) : ∃ ops i, decode (.command w ops) = .ok i := by
  obtain ⟨form, hform⟩ := Option.ne_none_iff_exists'.1 fun hnone => h ((formOfWord_eq_none w).1 hnone)
  obtain ⟨ops, i, hi⟩ := attachOperands_completes w form
  exact ⟨ops, i, (decode_of_form hform ops).trans hi⟩

theorem not_dataIsByte {d : Word} (h : 256 ≤ d.toNat) : ¬ dataIsByte d = true := by
  simpa [dataIsByte] using h

/-- The words 0x31 to 0x36 are the 8-bit register writes (R97, R98). -/
theorem formOfWord_set8 {w : Byte} (h : 0x31 ≤ w.toNat ∧ w.toNat ≤ 0x36) : ∃ k, formOfWord w = some (.data8 k) := by
  have hn : w.toNat = 0x31 ∨ w.toNat = 0x32 ∨ w.toNat = 0x33 ∨ w.toNat = 0x34 ∨ w.toNat = 0x35 ∨ w.toNat = 0x36 := by
    omega
  have hw : BitVec.ofNat 8 w.toNat = w := BitVec.ofNat_toNat 8 w
  rcases hn with hn | hn | hn | hn | hn | hn <;> rw [hn] at hw <;> subst hw <;> exact ⟨_, rfl⟩

theorem decode_reservedCommand {w : Byte} {ops : CommandOperands} (h : ReservedCommand w ops) :
    ∃ e, decode (.command w ops) = .error e := by
  obtain hw | ⟨hw, d, rfl, hd⟩ | ⟨hw, a, d, rfl, hd⟩ := h
  · exact ⟨_, decode_reservedWord hw ops⟩
  · obtain ⟨k, hk⟩ := formOfWord_set8 hw
    exact ⟨.dataTooWide w d, by rw [decode_of_form hk, attachOperands, if_neg (not_dataIsByte hd)]⟩
  · obtain rfl : w = 0x70#8 := BitVec.eq_of_toNat_eq hw
    exact ⟨.dataTooWide 0x70#8 d, by
      rw [decode_of_form (form := .addrData8 .writeByte) rfl, attachOperands, if_neg (not_dataIsByte hd)]⟩

/-- A command that spells nothing sets the refusal mark alone (R99, R210). -/
theorem step_of_refused {s : State} {w : Byte} {ops : CommandOperands} {rest : List Request} {e : DecodeError}
    (hf : s.fault = none) (hs : s.inputs = .command w ops :: rest) (he : decode (.command w ops) = .error e) :
    step s = .next { s with inputs := rest, refusalMark := true } := by
  simp only [step, hs, he, refuseRequest, refuseCommand]
  exact acceptCommand_ready (s := takeRequest (.command w ops) rest s) hf _

theorem Reads.refusalMark {s s' : State} {n : Nat} (h : Reads s s' n) : s'.refusalMark = s.refusalMark := by rw [h.rest]

theorem exec_keepsRefusalMark {i : Instr} {s t : State} (h : exec i s = .next t) (hs : s.refusalMark = true) :
    t.refusalMark = true := by
  cases exec_effect h with
  | refused => rfl
  | resolution _ _ _ _ _ _ _ _ hr => exact hr.refusalMark.trans hs
  | failedResolution _ _ _ _ _ _ _ hr => exact hr.refusalMark.trans hs
  | _ => exact hs

theorem step_keepsRefusalMark {s t : State} (h : step s = .next t) (hs : s.refusalMark = true) :
    t.refusalMark = true := by
  obtain ⟨-, rfl⟩ | ⟨r, rest, -, ⟨i, -, hi⟩ | ⟨e, -, rfl⟩⟩ := step_cases h
  · exact hs
  · exact exec_keepsRefusalMark (s := takeRequest r rest s) hi hs
  · rfl

/-- Settles O4: R97 and R99 share out the words between them, and only a refusal writes the mark. -/
theorem reservedCommandRefused : Obligations.ReservedCommandRefused := by
  refine ⟨fun _ ops h => decode_reservedWord h ops, fun _ h => decode_notReserved h,
    fun _ _ h => decode_reservedCommand h, fun s w ops rest hf hs h => ?_, fun _ _ h hs => step_keepsRefusalMark h hs,
    fun s hs ⟨_, _, hmark, _⟩ => ?_⟩
  · obtain ⟨e, he⟩ := decode_reservedCommand h
    exact step_of_refused hf hs he
  · rw [hs] at hmark
    cases hmark

/-! ### What a command returns -/

/-- A command that only raises an error, as the codes 13 to 15 do (R102, R160). -/
theorem failsCleanly_of_raise {i : Instr} {s : State} {e : ErrorRecord} (hf : s.fault = none)
    (hi : exec i s = runCommand s fun s => .err e s) : FailsCleanly i s e [] := by
  refine failsCleanly_of ?_
  rw [hi, runCommand, acceptCommand_ready hf, List.append_nil]

/-- Settles O25: the meaning of each of the three codes is to raise its error. -/
theorem resolveIllegalCodes : Obligations.ResolveIllegalCodes :=
  ⟨rfl, rfl, rfl, fun _ hf => ⟨failsCleanly_of_raise hf rfl, failsCleanly_of_raise hf rfl, failsCleanly_of_raise hf rfl⟩⟩

theorem Reads.replies {s s' : State} {n : Nat} (h : Reads s s' n) : s'.replies = s.replies := by rw [h.rest]

/-- What returns, ends with what is bound last. -/
theorem Res.bind_eq_ok {α β : Type} {x : Res α} {k : α → State → Res β} {r : β} {s' : State}
    (h : x.bind k = .ok r s') : ∃ v s, k v s = .ok r s' := by
  cases x with
  | ok v s => exact ⟨v, s, h⟩
  | err => cases h

/-- A mode that advances `PC` and returns, returns an Address (R100). -/
theorem modeBody_returns_addr {m : Mode} (ha : m ≠ .acc) (hi : m ≠ .impl) {s s' : State} {r : Result}
    (h : modeBody m s = .ok r s') : ∃ a c, r = .addr a c := by
  cases m with
  | acc => exact absurd rfl ha
  | impl => exact absurd rfl hi
  | imm | abs | zp | rel =>
    obtain ⟨_, _, h⟩ := Res.bind_eq_ok h
    cases h; exact ⟨_, _, rfl⟩
  | absX | absY | zpX | zpY | ind =>
    obtain ⟨_, _, h⟩ := Res.bind_eq_ok h
    obtain ⟨_, _, h⟩ := Res.bind_eq_ok h
    cases h; exact ⟨_, _, rfl⟩
  | indX | indY =>
    obtain ⟨_, _, h⟩ := Res.bind_eq_ok h
    obtain ⟨_, _, h⟩ := Res.bind_eq_ok h
    obtain ⟨_, _, h⟩ := Res.bind_eq_ok h
    cases h; exact ⟨_, _, rfl⟩

theorem fitsForm_addr {m : Mode} (ha : m ≠ .acc) (hi : m ≠ .impl) {r : Result} (h : ∃ a c, r = .addr a c) :
    FitsForm (modeInstr m) r := by
  cases m with
  | acc => exact absurd rfl ha
  | impl => exact absurd rfl hi
  | _ => exact h

theorem fitsForm_implicit {m : Mode} (h : m = .acc ∨ m = .impl) (c : Nat) : FitsForm (modeInstr m) (.implicit c) := by
  rcases h with rfl | rfl <;> exact ⟨c, rfl⟩

theorem IsPassThrough.fitsForm {i : Instr} (h : IsPassThrough i) : FitsForm i .done := by
  rcases h with ⟨_, _, rfl⟩ | ⟨_, _, rfl⟩ | ⟨_, _, rfl⟩ <;> rfl

/-- A command returns one result, of the form of its class or an error, and answers no other master (R100). -/
theorem command_returns_one {i : Instr} {s t : State} (hw : WellFormed i) (hi : isDeviceOp i = false)
    (h : exec i s = .next t) :
    (∃ r, t.results = s.results ++ [r] ∧ (FitsForm i r ∨ isError r = true)) ∧ t.replies = s.replies := by
  cases exec_effect h with
  | refused _ _ hn => exact absurd hw hn
  | resolution m s' r hm ha hl _ hb hr =>
    subst hm
    exact ⟨⟨r, by rw [respond_results, hr.results], .inl (fitsForm_addr ha hl (modeBody_returns_addr ha hl hb))⟩,
      hr.replies⟩
  | failedResolution m s' k e hm _ _ hr =>
    exact ⟨⟨.error e, by rw [takeError_results, forgetPc_results, hr.results], .inr rfl⟩, hr.replies⟩
  | latch m hm hal => subst hm; exact ⟨⟨_, rfl, .inl (fitsForm_implicit hal 1)⟩, rfl⟩
  | failed e | failedStore _ _ _ e => exact ⟨⟨.error e, rfl, .inr rfl⟩, rfl⟩
  | value v _ hv => exact ⟨⟨.value v, rfl, .inl hv⟩, rfl⟩
  | store _ _ _ hp => exact ⟨⟨.done, rfl, .inl hp.fitsForm⟩, rfl⟩
  | reset hc | setPc _ hc | setSp _ hc | setA _ hc | setX _ hc | setY _ hc | setP _ hc | setImplicit _ hc
  | setFlag _ _ hc => subst hc; exact ⟨⟨.done, rfl, .inl rfl⟩, rfl⟩
  | deviceReply _ _ _ _ _ hd | diagnosticReply _ hd => exact nomatch hi.symm.trans hd
  | deviceStore _ _ _ hd => exact nomatch hi.symm.trans hd.isDeviceOp
  | clear _ hc | indexedStore _ _ hc => subst hc; cases hi

/-- Settles O52: a command returns one result, and a device operation answers on the other port alone. -/
theorem oneResultPerCommand : Obligations.OneResultPerCommand := by
  refine fun i s t hw h => ⟨fun hi => command_returns_one hw hi h, fun hi => ?_⟩
  obtain ⟨ht, -⟩ := deviceOp_effect hi h
  rw [ht]

/-! ### Operand fields and numeric codes -/

/-- Settles O58: by the numbers behind each function of R92. -/
theorem operandAssembly : Obligations.OperandAssembly := by
  have hzp (b : Byte) : (zpAddress b).toNat = b.toNat := by
    rw [zpAddress, fromPageOffset_toNat]
    exact Nat.zero_add _
  refine ⟨fun b0 b1 => fromPageOffset_toNat b1 b0, fun b => ⟨hzp b, ?_⟩, fun b i => ⟨?_, ?_⟩, fun base i => ?_, fun b => ?_⟩
  · exact BitVec.eq_of_toNat_eq ((hzp b).trans (zext16_toNat b).symm)
  · exact BitVec.toNat_add b i
  · exact pageOf_fromPageOffset 0x00 _
  · rw [indexAbs, BitVec.toNat_add, zext16_toNat]
  · exact BitVec.toInt_signExtend_of_le (by decide)

/-- Settles O60: by the two tables. -/
theorem errorCodes : Obligations.ErrorCodes :=
  ⟨fun _ _ _ => rfl, fun _ => rfl, fun _ => rfl, rfl⟩

end Sys2Proof.Machine
end

section
/-! The accessor statements: the register reads and writes (R120 to R133) and the flag operations (R134 to R136). -/

namespace Sys2Proof.Machine

/-! ### Reading a register -/

/-- A command that raises `e`. -/
theorem runCommand_raises {s s' : State} {e : ErrorRecord} {body : State → Res Result} (h : s.fault = none)
    (hb : body s = .err e s') : runCommand s body = .next (takeError e s') := by
  rw [runCommand, acceptCommand_ready h]
  simp only [hb]

/-- A command that begins with the read of an invalid register raises `Unwritten` of it (R37). -/
theorem failsCleanly_of_unwritten {w : Nat} {i : Instr} {s : State} {sel : RegSel} {reg : State → Reg w}
    {k : BitVec w → State → Res Result} (hf : s.fault = none) (hv : (reg s).valid = false)
    (hi : exec i s = runCommand s fun s => (readReg sel (reg s) s).bind k) : FailsCleanly i s (.unwritten sel) [] := by
  refine failsCleanly_of ?_
  rw [hi, List.append_nil]
  exact runCommand_raises hf (by rw [readReg_invalid _ _ hv, Res.bind_err])

/-- The byte accessors (R121 to R126) read the register they name. -/
theorem readsByte_of_getByte {i : Instr} {s : State} {sel : RegSel} {reg : State → Reg 8} (hf : s.fault = none)
    (hi : exec i s = runCommand s fun s => getByte sel (reg s) s) : ReadsByte i sel (reg s) s := by
  refine ⟨fun hv => failsCleanly_of_unwritten hf hv hi, fun hv => ?_⟩
  rw [hi]
  exact runCommand_returns hf (by rw [getByte, readReg_valid _ _ hv, Res.bind_ok])

theorem readsByte_getImp {s : State} (hf : s.fault = none) : ReadsByte .getImp .IMP s.imp s :=
  readsByte_of_getByte (reg := State.imp) hf rfl

theorem exec_getPc {s : State} (hf : s.fault = none) (hv : s.pc.valid = true) :
    exec .getPc s = .next (respond (.value (.word s.pc.value)) s) := by
  rw [exec, execGetPc]
  exact runCommand_returns hf (by rw [readReg_valid _ _ hv, Res.bind_ok])

/-- SET_FLAG on a zero status byte leaves the flag's mask (R95, R136). -/
theorem withFlag_zero (f : Flag) : withFlag 0x00 f true = flagMask f := by
  rw [withFlag, if_pos rfl]
  exact BitVec.zero_or

/-- After RESET and SET_FLAG, GET_P returns the flag's mask (R125). -/
theorem getP_after_reset_setFlag {s : State} (hf : s.fault = none) (f : Flag) :
    ∃ t u, exec .reset s = .next t ∧ exec (.setFlag true f) t = .next u ∧
      exec .getP u = .next (returned u (.value (.byte (flagMask f)))) := by
  refine ⟨_, _, exec_reset hf, exec_setFlag true f hf rfl, ?_⟩
  rw [← withFlag_zero]
  exact exec_getP hf rfl

/-- ACC and IMPL latch the accumulator with its validity (R38, R153, R154). -/
theorem exec_implicit {m : Mode} (hm : m = .acc ∨ m = .impl) {s : State} (hf : s.fault = none) :
    exec (modeInstr m) s = .next (respond (.implicit 1) { s with imp := s.a }) := by
  rw [exec_modeInstr]
  exact runResolve_returns hf (modeBody_implicit hm s)

/-- Settles O14: each read is its register's, and the two corner cases follow the commands before the read. -/
theorem registerReads : Obligations.RegisterReads := by
  refine ⟨⟨rfl, rfl, rfl, rfl, rfl, rfl, rfl⟩, fun s hf => ⟨?_, exec_getPc hf, ?_, ?_, ?_, ?_, ?_, readsByte_getImp hf,
    getP_after_reset_setFlag hf, fun ha => ?_⟩⟩
  · exact fun hv => failsCleanly_of_unwritten (reg := State.pc) hf hv rfl
  · exact readsByte_of_getByte (reg := State.sp) hf rfl
  · exact readsByte_of_getByte (reg := State.a) hf rfl
  · exact readsByte_of_getByte (reg := State.x) hf rfl
  · exact readsByte_of_getByte (reg := State.y) hf rfl
  · exact readsByte_of_getByte (reg := State.p) hf rfl
  · obtain ⟨hraises, -⟩ := readsByte_getImp (s := respond (.implicit 1) { s with imp := s.a }) hf
    exact ⟨_, exec_implicit (.inl rfl) hf, exec_implicit (.inr rfl) hf, hraises ha⟩

/-! ### Writing a register -/

theorem exec_setPc (d : Word) {s : State} (hf : s.fault = none) :
    exec (.setPc d) s = .next (respond .done { s with pc := .of 16 d }) := by
  rw [exec, execSetPc]
  exact runCommand_returns hf rfl

/-- An 8-bit write whose operand is a byte: its word spells it, and it does what `set` does with the low byte (R98). -/
theorem byteWrite_decodes_and_sets {w : Byte} {k : Word → Instr} {d : Word} {s : State} (set : Byte → State → State)
    (hf : s.fault = none) (hd : d.toNat < 256) (hw : formOfWord w = some (.data8 k))
    (hi : exec (k d) s = withByteData d s fun b => runCommand s fun s => .ok .done (set b s)) :
    decode (.command w (.data d)) = .ok (k d) ∧ exec (k d) s = .next (respond .done (set (lowByte d) s)) := by
  have hbyte : dataIsByte d = true := decide_eq_true hd
  refine ⟨decode_data8 hw hbyte, ?_⟩
  rw [hi, withByteData, if_pos hbyte]
  exact runCommand_returns hf rfl

/-- Settles O15: each write sets its own register, to the operand or to its low byte. -/
theorem registerWrites : Obligations.RegisterWrites := by
  refine fun s hf d => ⟨rfl, exec_setPc d hf, fun hd => ⟨?_, ?_, ?_, ?_, ?_, ?_⟩⟩
  · exact byteWrite_decodes_and_sets (fun b s => { s with sp := .of 8 b }) hf hd rfl rfl
  · exact byteWrite_decodes_and_sets (fun b s => { s with a := .of 8 b }) hf hd rfl rfl
  · exact byteWrite_decodes_and_sets (fun b s => { s with x := .of 8 b }) hf hd rfl rfl
  · exact byteWrite_decodes_and_sets (fun b s => { s with y := .of 8 b }) hf hd rfl rfl
  · exact byteWrite_decodes_and_sets (fun b s => { s with p := .of 8 b }) hf hd rfl rfl
  · exact byteWrite_decodes_and_sets (fun b s => { s with imp := .of 8 b }) hf hd rfl rfl

/-! ### The flag operations -/

theorem exec_hasFlag (f : Flag) {s : State} (hf : s.fault = none) (hp : s.p.valid = true) :
    exec (.hasFlag f) s = .next (respond (.value (.bool (flagSet s.p.value f))) s) := by
  rw [exec, execHasFlag]
  exact runCommand_returns hf (by rw [readReg_valid _ _ hp, Res.bind_ok])

/-- Settles O16: both commands read `P` first, and then the flag's bit. -/
theorem flagReads : Obligations.FlagReads := by
  refine fun f => ⟨by cases f <;> rfl, by cases f <;> rfl, fun s hf => ⟨fun hp => ⟨?_, ?_⟩, fun hp => ⟨?_, ?_⟩⟩⟩
  · exact failsCleanly_of_unwritten (reg := State.p) hf hp rfl
  · exact failsCleanly_of_unwritten (reg := State.p) hf hp rfl
  · exact exec_getFlag f hf hp
  · exact exec_hasFlag f hf hp

/-- Settles O17: the byte written is `withFlag`'s, which changes the flag's own bit alone. -/
theorem flagWrites : Obligations.FlagWrites := by
  refine fun v f => ⟨by cases v <;> cases f <;> rfl, fun s hf => ⟨fun hp => ?_, fun hp => ?_⟩⟩
  · exact failsCleanly_of_unwritten (reg := State.p) hf hp rfl
  · refine ⟨withFlag s.p.value f v, exec_setFlag v f hf hp, rfl, ?_, fun g hg => ?_⟩
    · rw [flagSet_withFlag, if_pos rfl]
    · rw [flagSet_withFlag, if_neg hg]

end Sys2Proof.Machine
end

section
/-! The direct addressing modes (R153 to R158), and what every resolution does: its cycle count (R151), that it completes
(R150 to R183) and its frame (R152). -/

namespace Sys2Proof.Machine

/-! ### The direct modes -/

/-- Settles O20: both modes are the one latch of `A` with its validity. -/
theorem resolveImplicitModes : Obligations.ResolveImplicitModes :=
  ⟨rfl, rfl, fun _ hf => ⟨exec_implicit (.inl rfl) hf, exec_implicit (.inr rfl) hf⟩⟩

/-- A resolution that returns `r` after the reads `evs` and `n` increments of `PC`. -/
theorem exec_resolved {i : Instr} {s : State} {body : State → Res Result} {n : Nat} {evs : List Event} {r : Result}
    (hf : s.fault = none) (hi : exec i s = runResolve s body)
    (hb : body s = .ok r { s with pc := ⟨s.pc.value + BitVec.ofNat 16 n, true⟩, events := s.events ++ evs }) :
    exec i s = .next (resolved s n evs r) :=
  hi.trans (runResolve_returns hf hb)

/-- Settles O21: `PC` is read and advanced, and nothing depends on the capacity. -/
theorem Resolution.resolveImmediate : Obligations.ResolveImmediate := by
  refine ⟨rfl, fun s hf => ⟨fun hv => ?_, fun hv => ?_⟩⟩
  · exact failsWith_of (n := 0) hf rfl (Nat.le_refl 0) (by simp [Machine.resolveImmediate, readReg_invalid _ _ hv])
  · exact exec_resolved hf rfl (by
      rw [Machine.resolveImmediate, readReg_valid _ _ hv, Res.bind_ok, List.append_nil]
      rfl)

/-- Settles O22: the Word of `FetchWord` is returned as it is. -/
theorem Resolution.resolveAbsolute : Obligations.ResolveAbsolute :=
  ⟨rfl, fun _ hf => twoOperands_of hf rfl rfl fun hv hc hc' =>
    exec_resolved hf rfl (by rw [Machine.resolveAbsolute, fetchWord_in hv hc hc', Res.bind_ok]; rfl)⟩

theorem zpAddress_eq_zext16 (b : Byte) : zpAddress b = zext16 b := by
  obtain ⟨-, hzp, -⟩ := operandAssembly
  exact (hzp b).2

/-- Settles O23: the byte of `FetchByte` is returned as an Address of page 0. -/
theorem Resolution.resolveZeroPage : Obligations.ResolveZeroPage :=
  ⟨rfl, fun _ hf => oneOperand_of hf rfl rfl fun hv hc =>
    exec_resolved hf rfl (by rw [Machine.resolveZeroPage, fetchByte_in hv hc, Res.bind_ok, zpAddress_eq_zext16]; rfl)⟩

/-- A negative byte is extended by a high byte of ones (R92). -/
theorem sext16_toNat (b : Byte) : (sext16 b).toNat = if b.toNat < 0x80 then b.toNat else b.toNat + 0xFF00 := by
  have hz : (b.setWidth 16).toNat = b.toNat := zext16_toNat b
  rw [sext16, BitVec.toNat_signExtend, hz, BitVec.msb_eq_decide]
  by_cases h : b.toNat < 0x80
  · simp [h]
  · simp [h, Nat.not_lt.1 h]

theorem offsetOf_sext16 (b : Byte) : offsetOf (sext16 b) = b := by
  have := b.isLt
  apply BitVec.eq_of_toNat_eq
  rw [offsetOf_toNat, sext16_toNat]
  split <;> omega

/-- Settles O24: the byte of `FetchByte` is returned sign-extended. -/
theorem Resolution.resolveRelative : Obligations.ResolveRelative := by
  obtain ⟨-, -, -, -, hsext⟩ := operandAssembly
  refine ⟨rfl, fun s hf => oneOperand_of hf rfl rfl fun hv hc => ⟨sext16 (operand0 s), ?_, ?_, ?_, ?_⟩⟩
  · exact exec_resolved hf rfl (by rw [Machine.resolveRelative, fetchByte_in hv hc, Res.bind_ok]; rfl)
  · exact sext16_toNat _
  · exact hsext _
  · exact offsetOf_sext16 _

/-! ### The frame of a resolution -/

/-- What the resolver of `m` leaves as it was, whether it returns or raises (R152). -/
structure ResolverFrame (m : Mode) (s s' : State) : Prop where
  rest : s' = { s with pc := s'.pc, imp := s'.imp, events := s'.events }
  imp : m ≠ .acc → m ≠ .impl → s'.imp = s.imp

namespace ResolverFrame

variable {m : Mode} {s s' : State}

theorem fault (h : ResolverFrame m s s') : s'.fault = s.fault := by rw [h.rest]
theorem results (h : ResolverFrame m s s') : s'.results = s.results := by rw [h.rest]

theorem of_ok {r : Result} (h : modeBody m s = .ok r s') : ResolverFrame m s s' := by
  by_cases hm : m = .acc ∨ m = .impl
  · rw [modeBody_implicit hm] at h
    cases h
    exact ⟨rfl, fun ha hi => absurd hm (not_or.2 ⟨ha, hi⟩)⟩
  · obtain ⟨ha, hi⟩ := not_or.1 hm
    obtain ⟨hr, him⟩ := (modeBody_part ha hi s).ok _ _ h
    exact ⟨hr.rest, fun _ _ => him⟩

theorem of_err {e : ErrorRecord} (h : modeBody m s = .err e s') : ResolverFrame m s s' := by
  obtain ⟨ha, hi⟩ := modeBody_raises h
  obtain ⟨⟨_, -, hr⟩, him⟩ := (modeBody_part ha hi s).err _ _ h
  exact ⟨hr.rest, fun _ _ => him⟩

end ResolverFrame

/-- Everything a RESOLVE command of a valid mode can do, with the frame of its resolver. -/
theorem exec_modeInstr_next {m : Mode} {s t : State} (h : exec (modeInstr m) s = .next t) :
    (∃ r s', modeBody m s = .ok r s' ∧ ResolverFrame m s s' ∧ t = respond r s' ∧ t.fault = none) ∨
    (∃ e s', ResolverFrame m s s' ∧ t = takeError e (forgetPc s s')) := by
  rw [exec_modeInstr] at h
  obtain ⟨hf, ⟨r, s', hb, rfl⟩ | ⟨e, s', hb, rfl⟩⟩ := runResolve_next h
  · exact .inl ⟨r, s', hb, .of_ok hb, rfl, (ResolverFrame.of_ok hb).fault.trans hf⟩
  · exact .inr ⟨e, s', .of_err hb, rfl⟩

/-- Settles O36: returning and raising add nothing to what the resolver changes but the result, `FAULT` and `PC`. -/
theorem resolutionsKeepEverythingElse : Obligations.ResolutionsKeepEverythingElse := by
  intro m s t h
  obtain ⟨r, s', -, hs, rfl, -⟩ | ⟨e, s', hs, rfl⟩ := exec_modeInstr_next h
  · exact ⟨by rw [hs.rest]; rfl, hs.imp⟩
  · exact ⟨by rw [hs.rest]; rfl, hs.imp⟩

/-! ### Cycle counts -/

/-- What returns has done its first part, and goes on from there. -/
theorem Res.eq_ok_of_bind {α β : Type} {x : Res α} {k : α → State → Res β} {r : β} {s' : State}
    (h : x.bind k = .ok r s') : ∃ v s, x = .ok v s ∧ k v s = .ok r s' := by
  cases x with
  | ok v s => exact ⟨v, s, rfl, h⟩
  | err => cases h

theorem readReg_eq_ok {w : Nat} {sel : RegSel} {r : Reg w} {s s' : State} {v : BitVec w}
    (h : readReg sel r s = .ok v s') : v = r.value := by
  cases hv : r.valid with
  | true => rw [readReg_valid _ _ hv] at h; cases h; rfl
  | false => rw [readReg_invalid _ _ hv] at h; cases h

/-- `FetchByte` returns the byte at `PC`. -/
theorem fetchByte_eq_ok {s s' : State} {b : Byte} (h : fetchByte s = .ok b s') : b = operand0 s := by
  cases hv : s.pc.valid with
  | false => rw [fetchByte_invalid hv] at h; cases h
  | true =>
    rcases Nat.lt_or_ge s.pc.value.toNat s.params.cap with hc | hc
    · rw [fetchByte_in hv hc] at h; cases h; rfl
    · rw [fetchByte_out hv hc] at h; cases h

/-- `FetchWord` returns the Word of the two operand bytes. -/
theorem fetchWord_eq_ok {s s' : State} {w : Word} (h : fetchWord s = .ok w s') : w = operand1 s ++ operand0 s := by
  obtain ⟨lo, s₁, hlo, h⟩ := Res.eq_ok_of_bind h
  obtain ⟨hi, s₂, hhi, h⟩ := Res.eq_ok_of_bind h
  obtain ⟨hr, -⟩ := (Part.fetchByte s).ok _ _ hlo
  have hop : operand0 s₁ = operand1 s := by rw [operand0, operand1, hr.mem, hr.pc]; rfl
  cases h
  rw [fetchByte_eq_ok hlo, fetchByte_eq_ok hhi, hop, fromPageOffset]

/-- The result `r` of mode `m` counts the base cycles, and one more exactly where `due` holds (R151). -/
def CountsCycles (m : Mode) (r : Result) (due : Prop) : Prop :=
  ∃ c : Bool, cyclesOf r = some (baseCycles m + penalty c) ∧ (c = true ↔ due)

theorem countsCycles_never {m : Mode} {r : Result} (h : cyclesOf r = some (baseCycles m)) : CountsCycles m r False :=
  ⟨false, h, iff_of_false Bool.false_ne_true id⟩

/-- The absolute-indexed modes count a penalty where the page of the sum is not the base's (R170, R171, R174). -/
theorem resolveAbsIndexed_countsCycles {m : Mode} {sel : RegSel} {index : Reg 8} {s s' : State} {r : Result}
    (h : resolveAbsIndexed m sel index s = .ok r s') :
    CountsCycles m r (pageOf ((operand1 s ++ operand0 s) + zext16 index.value) ≠ operand1 s) := by
  obtain ⟨base, s₁, hbase, h⟩ := Res.eq_ok_of_bind h
  obtain ⟨i, s₂, hi, h⟩ := Res.eq_ok_of_bind h
  have hpage : pageOf (operand1 s ++ operand0 s) = operand1 s := pageOf_fromPageOffset _ _
  cases h
  refine ⟨crossesPage base (indexAbs base i), rfl, ?_⟩
  rw [fetchWord_eq_ok hbase, readReg_eq_ok hi, crossesPage, bne_iff_ne, hpage, indexAbs]

/-- What each mode counts where it returns (R151, and R153 to R183 for the penalties). -/
theorem modeBody_countsCycles {m : Mode} {s s' : State} {r : Result} (h : modeBody m s = .ok r s') :
    CountsCycles m r (penaltyDue m s) := by
  cases m with
  | acc | impl => cases h; exact countsCycles_never rfl
  | imm | abs | zp | rel =>
    obtain ⟨_, _, h⟩ := Res.bind_eq_ok h
    cases h; exact countsCycles_never rfl
  | zpX | zpY | ind =>
    obtain ⟨_, _, h⟩ := Res.bind_eq_ok h
    obtain ⟨_, _, h⟩ := Res.bind_eq_ok h
    cases h; exact countsCycles_never rfl
  | absX | absY => exact resolveAbsIndexed_countsCycles h
  | indX =>
    obtain ⟨b, s₁, hb, h⟩ := Res.eq_ok_of_bind h
    obtain ⟨i, s₂, hi, h⟩ := Res.eq_ok_of_bind h
    obtain ⟨ea, s₃, -, h⟩ := Res.eq_ok_of_bind h
    obtain ⟨hr, -⟩ := (Part.fetchByte s).ok _ _ hb
    cases h
    refine ⟨wrapsZp b i, rfl, ?_⟩
    rw [fetchByte_eq_ok hb, readReg_eq_ok hi, hr.x, wrapsZp, decide_eq_true_iff]
    rfl
  | indY =>
    obtain ⟨z, s₁, hz, h⟩ := Res.eq_ok_of_bind h
    obtain ⟨base, s₂, -, h⟩ := Res.eq_ok_of_bind h
    obtain ⟨i, s₃, -, h⟩ := Res.eq_ok_of_bind h
    cases h
    refine ⟨z == 0xFF, rfl, ?_⟩
    rw [fetchByte_eq_ok hz, beq_iff_eq]
    rfl

/-- Settles O33: a resolution that returns, returns what its resolver counts; an error carries no count. -/
theorem cycleCounts : Obligations.CycleCounts := by
  intro m s t h
  obtain ⟨r, s', hb, hs, rfl, hf⟩ | ⟨e, s', hs, rfl⟩ := exec_modeInstr_next h
  · obtain ⟨c, hc, hdue⟩ := modeBody_countsCycles hb
    refine ⟨fun _ => ⟨r, _, by rw [respond_results, hs.results], hc, fun base hbase => ?_⟩, fun hne => absurd hf hne⟩
    have hbase : base = baseCycles m := by rw [hbase]; cases m <;> rfl
    rw [hbase, ← hdue]
    cases c <;> simp [penalty]
  · exact ⟨nofun, fun _ => ⟨.error e, by rw [takeError_results, forgetPc_results, hs.results], rfl⟩⟩

/-! ### Completion on the full device -/

/-- A part of a resolution that raises no error. -/
def Returns {α : Type} (x : Res α) : Prop := ∃ v s', x = .ok v s'

theorem Returns.ok {α : Type} (v : α) (s : State) : Returns (.ok v s) := ⟨v, s, rfl⟩

theorem Returns.bind {α β : Type} {x : Res α} {k : α → State → Res β} (hx : Returns x)
    (hk : ∀ v s', x = .ok v s' → Returns (k v s')) : Returns (x.bind k) := by
  obtain ⟨v, s', rfl⟩ := hx
  exact hk v s' rfl

theorem Returns.readReg {w : Nat} (sel : RegSel) {r : Reg w} (s : State) (h : r.valid = true) :
    Returns (readReg sel r s) := ⟨_, _, readReg_valid sel s h⟩

section
variable {s : State} (hc : s.params.cap = 65536)
include hc

/-- Every Address is in a device of the full address space (R57). -/
theorem toNat_lt_cap (a : Word) : a.toNat < s.params.cap := by
  rw [hc]; exact a.isLt

theorem Returns.busReadByte (a : Word) : Returns (busReadByte .cpu a s) := ⟨_, _, busReadByte_in _ (toNat_lt_cap hc a)⟩

/-- A Word can be read at every Address but the last (R52). -/
theorem Returns.busReadWord {a : Word} (ha : a ≠ 0xFFFF#16) : Returns (busReadWord .cpu a s) := by
  have hlt : a.toNat < 65536 := a.isLt
  have hne : a.toNat ≠ 0xFFFF := fun h => ha (BitVec.eq_of_toNat_eq h)
  exact ⟨_, _, busReadWord_in _ (by omega)⟩

theorem Returns.fetchByte (hv : s.pc.valid = true) : Returns (fetchByte s) := ⟨_, _, fetchByte_in hv (toNat_lt_cap hc _)⟩

theorem Returns.fetchWord (hv : s.pc.valid = true) : Returns (fetchWord s) :=
  ⟨_, _, fetchWord_in hv (toNat_lt_cap hc _) (toNat_lt_cap hc _)⟩

/-- A zero-page pointer is read for either value of `ZP_POINTER_WRAP`: the byte after `0x00FF` has an Address (R181). -/
theorem Returns.zpPointer (z : Byte) : Returns (zpPointer z s) := by
  unfold Machine.zpPointer
  split
  · refine (busReadByte hc _).bind fun _ s₁ h => ?_
    obtain ⟨hr, -⟩ := (Part.busReadByte _ s).ok _ _ h
    exact (busReadByte (by rw [hr.params]; exact hc) _).bind fun _ _ _ => .ok _ _
  · have hz : (zext16 z).toNat < 256 := by rw [zext16_toNat]; exact z.isLt
    exact busReadWord hc fun h => absurd hz (by rw [h]; decide)

/-- With the registers it reads valid, and for IND a pointer other than `0xFFFF`, a resolver returns. -/
theorem modeBody_returns_of_valid {m : Mode} (hpc : m ≠ .acc → m ≠ .impl → s.pc.valid = true)
    (hx : m = .absX ∨ m = .zpX ∨ m = .indX → s.x.valid = true)
    (hy : m = .absY ∨ m = .zpY ∨ m = .indY → s.y.valid = true)
    (hp : m = .ind → operand1 s ++ operand0 s ≠ 0xFFFF#16) : Returns (modeBody m s) := by
  by_cases hm : m = .acc ∨ m = .impl
  · exact ⟨_, _, modeBody_implicit hm s⟩
  obtain ⟨ha, hi⟩ := not_or.1 hm
  have hv := hpc ha hi
  cases m with
  | acc => exact absurd rfl ha
  | impl => exact absurd rfl hi
  | imm => exact (Returns.readReg _ _ hv).bind fun _ _ _ => .ok _ _
  | abs => exact (Returns.fetchWord hc hv).bind fun _ _ _ => .ok _ _
  | zp | rel => exact (Returns.fetchByte hc hv).bind fun _ _ _ => .ok _ _
  | absX =>
    exact (Returns.fetchWord hc hv).bind fun _ _ _ => (Returns.readReg _ _ (hx (by decide))).bind fun _ _ _ => .ok _ _
  | absY =>
    exact (Returns.fetchWord hc hv).bind fun _ _ _ => (Returns.readReg _ _ (hy (by decide))).bind fun _ _ _ => .ok _ _
  | zpX =>
    exact (Returns.fetchByte hc hv).bind fun _ _ _ => (Returns.readReg _ _ (hx (by decide))).bind fun _ _ _ => .ok _ _
  | zpY =>
    exact (Returns.fetchByte hc hv).bind fun _ _ _ => (Returns.readReg _ _ (hy (by decide))).bind fun _ _ _ => .ok _ _
  | ind =>
    refine (Returns.fetchWord hc hv).bind fun ptr s₁ h => ?_
    obtain ⟨hr, -⟩ := (Part.fetchWord s).ok _ _ h
    have hptr : ptr ≠ 0xFFFF#16 := by rw [fetchWord_eq_ok h]; exact hp rfl
    exact (Returns.busReadWord (by rw [hr.params]; exact hc) hptr).bind fun _ _ _ => .ok _ _
  | indX =>
    refine (Returns.fetchByte hc hv).bind fun b s₁ h => ?_
    obtain ⟨hr, -⟩ := (Part.fetchByte s).ok _ _ h
    have hx₁ : s₁.x.valid = true := by rw [hr.x]; exact hx (by decide)
    refine (Returns.readReg _ _ hx₁).bind fun i s₂ h₂ => ?_
    obtain ⟨hr₂, -⟩ := (Part.readReg _ _ s₁).ok _ _ h₂
    exact (Returns.zpPointer (by rw [hr₂.params, hr.params]; exact hc) _).bind fun _ _ _ => .ok _ _
  | indY =>
    refine (Returns.fetchByte hc hv).bind fun z s₁ h => ?_
    obtain ⟨hr, -⟩ := (Part.fetchByte s).ok _ _ h
    refine (Returns.zpPointer (by rw [hr.params]; exact hc) z).bind fun base s₂ h₂ => ?_
    obtain ⟨hr₂, -⟩ := (Part.zpPointer z s₁).ok _ _ h₂
    have hy₂ : s₂.y.valid = true := by rw [hr₂.y, hr.y]; exact hy (by decide)
    exact (Returns.readReg _ _ hy₂).bind fun _ _ _ => .ok _ _

end

/-- Settles O35: the resolver returns, and returning leaves `FAULT` as it was. -/
theorem resolutionsComplete : Obligations.ResolutionsComplete := by
  intro m s hf hc hpc hx hy hp
  obtain ⟨r, s', hb⟩ := modeBody_returns_of_valid hc hpc hx hy hp
  exact ⟨_, (exec_modeInstr m s).trans (runResolve_returns hf hb), (ResolverFrame.of_ok hb).fault.trans hf⟩

end Sys2Proof.Machine
end

section
/-! The indexed addressing modes (R170 to R175). -/

namespace Sys2Proof.Machine

/-! ### The absolute-indexed sum and its page -/

theorem crossesPage_iff_pageOf_ne (base ea : Word) : crossesPage base ea = true ↔ pageOf ea ≠ pageOf base := by
  rw [crossesPage, bne_iff_ne]

theorem indexAbs_toNat (base : Word) (i : Byte) : (indexAbs base i).toNat = (base.toNat + i.toNat) % 65536 := by
  obtain ⟨-, -, -, hsum, -⟩ := operandAssembly
  exact hsum base i

/-- The carry of the low bytes' sum is what the addition brings to the page (R174). -/
theorem pageOf_indexAbs (base : Word) (i : Byte) :
    pageOf (indexAbs base i) = if base.toNat % 256 + i.toNat > 0xFF then pageOf base + 1 else pageOf base := by
  have hbase := base.isLt
  have hi := i.isLt
  apply BitVec.eq_of_toNat_eq
  rw [pageOf_toNat, indexAbs_toNat]
  split
  · have hone : (1 : Byte).toNat = 1 := rfl
    rw [BitVec.toNat_add, pageOf_toNat, hone]
    omega
  · rw [pageOf_toNat]
    omega

theorem page_add_one_ne (page : Byte) : page + 1 ≠ page := by bv_omega

/-- Settles O27: the page moves by the carry of the low bytes' sum, and the next page is never the base's. -/
theorem pageCrossing : Obligations.PageCrossing := by
  intro base i
  refine ⟨indexAbs_toNat base i, ?_, crossesPage_iff_pageOf_ne _ _, ?_⟩
  · rw [pageOf_indexAbs]
    split
    · exact .inr rfl
    · exact .inl rfl
  · rw [crossesPage_iff_pageOf_ne, pageOf_indexAbs]
    split
    next hcarry => exact iff_of_true (page_add_one_ne _) hcarry
    next hcarry => exact iff_of_false (fun h => h rfl) hcarry

/-! ### The indexed modes -/

section
variable {i : Instr} {m : Mode} {sel : RegSel} {index : Reg 8} {s : State}

/-- Three cycles, and one more where the page changes (R170, R171). -/
theorem cycles_of_crossesPage (hm : baseCycles m = 3) (base ea : Word) :
    baseCycles m + penalty (crossesPage base ea) = if pageOf ea = pageOf base then 3 else 4 := by
  simp only [hm, penalty, crossesPage_iff_pageOf_ne, ne_eq, ite_not]
  split <;> rfl

/-- What an absolute mode indexed by the register `index` does: the register is read after the operand bytes (R170,
R171). -/
theorem twoOperands_of_resolveAbsIndexed (hm : baseCycles m = 3) (hf : s.fault = none)
    (hi : exec i s = runResolve s (resolveAbsIndexed m sel index)) :
    TwoOperands i s fun base evs =>
      (index.valid = false → FailsWith i s (.unwritten sel) evs 2) ∧
      (index.valid = true → exec i s = .next (resolved s 2 evs (.addr (indexAbs base index.value)
        (if pageOf (indexAbs base index.value) = pageOf base then 3 else 4)))) := by
  refine twoOperands_of hf hi rfl fun hv hc hc' => ⟨fun hr => ?_, fun hr => ?_⟩
  · refine failsWith_of (n := 2) hf hi (Nat.le_refl 2) ?_
    rw [resolveAbsIndexed, fetchWord_in hv hc hc', Res.bind_ok, readReg_invalid _ _ hr, hv]
    rfl
  · refine exec_resolved hf hi ?_
    rw [resolveAbsIndexed, fetchWord_in hv hc hc', Res.bind_ok, readReg_valid _ _ hr, Res.bind_ok, returnAddr,
      cycles_of_crossesPage hm]
    rfl

/-- What a zero-page mode indexed by the register `index` does: the register is read after the operand byte, the sum
stays in page 0, and no cycle is added (R172, R173, R175). -/
theorem oneOperand_of_resolveZpIndexed (hm : baseCycles m = 2) (hf : s.fault = none)
    (hi : exec i s = runResolve s (resolveZpIndexed m sel index)) :
    OneOperand i s fun b evs =>
      (index.valid = false → FailsWith i s (.unwritten sel) evs 1) ∧
      (index.valid = true → ∃ a : Word, a.toNat = (b.toNat + index.value.toNat) % 256 ∧
        exec i s = .next (resolved s 1 evs (.addr a 2))) := by
  obtain ⟨-, hzp, hsum, -⟩ := operandAssembly
  refine oneOperand_of hf hi rfl fun hv hc => ⟨fun hr => ?_, fun hr => ?_⟩
  · refine failsWith_of (n := 1) hf hi (Nat.le_refl 1) ?_
    rw [resolveZpIndexed, fetchByte_in hv hc, Res.bind_ok, readReg_invalid _ _ hr, hv]
    rfl
  · refine ⟨zpAddress (indexZp (operand0 s) index.value), ?_, exec_resolved hf hi ?_⟩
    · rw [(hzp _).1, (hsum _ _).1]
    · rw [resolveZpIndexed, fetchByte_in hv hc, Res.bind_ok, readReg_valid _ _ hr, Res.bind_ok, returnAddr, hm]
      rfl

end

/-- Settles O26: both modes are the one absolute-indexed resolver, with `X` and with `Y`. -/
theorem resolveAbsoluteIndexed : Obligations.ResolveAbsoluteIndexed :=
  ⟨rfl, rfl, fun _ hf => ⟨twoOperands_of_resolveAbsIndexed (m := .absX) rfl hf rfl,
    twoOperands_of_resolveAbsIndexed (m := .absY) rfl hf rfl⟩⟩

/-- Settles O28: both modes are the one zero-page-indexed resolver, with `X` and with `Y`. -/
theorem resolveZeroPageIndexed : Obligations.ResolveZeroPageIndexed :=
  ⟨rfl, rfl, fun _ hf => ⟨oneOperand_of_resolveZpIndexed (m := .zpX) rfl hf rfl,
    oneOperand_of_resolveZpIndexed (m := .zpY) rfl hf rfl⟩⟩

end Sys2Proof.Machine
end

section
/-! The indirect addressing modes (R180 to R183). -/

namespace Sys2Proof.Machine

/-! ### A resolution past its operand bytes -/

/-- The state a resolution is in after `n` increments of `PC` and the bus reads `evs` (R152). -/
def reached (s : State) (n : Nat) (evs : List Event) : State :=
  { s with pc := ⟨s.pc.value + BitVec.ofNat 16 n, true⟩, events := s.events ++ evs }

section
variable {s : State} (n : Nat) (evs : List Event)

@[simp] theorem reached_x : (reached s n evs).x = s.x := rfl
@[simp] theorem reached_y : (reached s n evs).y = s.y := rfl

/-- A bus operation on the way is one more event. -/
@[simp] theorem recordEvent_reached (m : Master) (op : BusOp) (a w : Nat) (v : Option (List Byte)) :
    recordEvent m op a w v (reached s n evs) = reached s n (evs ++ [⟨m, op, a, w, v⟩]) := by
  rw [recordEvent, reached, reached, List.append_assoc]

/-- `reached` in the form in which a failure is stated: a `PC` that was valid stays so. -/
theorem reached_of_valid (hv : s.pc.valid = true) : reached s n evs =
    { s with pc := ⟨s.pc.value + BitVec.ofNat 16 n, s.pc.valid⟩, events := s.events ++ evs } := by
  rw [hv]
  rfl

end

section
variable {s : State} (hv : s.pc.valid = true)
include hv

theorem fetchByte_eq_reached (hc : s.pc.value.toNat < s.params.cap) :
    fetchByte s = .ok (operand0 s) (reached s 1 [byteRead s.pc.value.toNat (operand0 s)]) := fetchByte_in hv hc

theorem fetchWord_eq_reached (hc : s.pc.value.toNat < s.params.cap) (hc' : (s.pc.value + 1).toNat < s.params.cap) :
    fetchWord s = .ok (operand1 s ++ operand0 s) (reached s 2
      [byteRead s.pc.value.toNat (operand0 s), byteRead (s.pc.value + 1).toNat (operand1 s)]) := fetchWord_in hv hc hc'

/-- A resolution of a valid `PC` that raises `e` after `n` increments and the reads `evs`. -/
theorem failsWith_of_reached {i : Instr} {body : State → Res Result} {e : ErrorRecord} {n : Nat} {evs : List Event}
    (hf : s.fault = none) (hi : exec i s = runResolve s body) (hb : body s = .err e (reached s n evs)) :
    FailsWith i s e evs n :=
  failsWith_of hf hi (Nat.le_refl n) (hb.trans (by rw [reached_of_valid n evs hv]))

end

/-! ### IND -/

/-- Settles O29: the pointer is `FetchWord`'s, and the Word read at it is returned as it is. -/
theorem Resolution.resolveIndirect : Obligations.ResolveIndirect := by
  refine ⟨rfl, fun s hf => twoOperands_of hf rfl rfl fun hv hc hc' => ⟨fun hptr => ?_, fun hptr => ?_⟩⟩
  · refine failsWith_of_reached hv hf rfl ?_
    rw [Machine.resolveIndirect, fetchWord_eq_reached hv hc hc', Res.bind_ok,
      busReadWord_out (s := reached s 2 _) _ hptr, Res.bind_err, recordEvent_reached]
    rfl
  · refine exec_resolved hf rfl ?_
    rw [Machine.resolveIndirect, fetchWord_eq_reached hv hc hc', Res.bind_ok,
      busReadWord_in (s := reached s 2 _) _ hptr, Res.bind_ok, recordEvent_reached]
    rfl

/-! ### The zero-page pointer -/

section
variable {s : State} {z : Byte}

/-- With the wrap, a low byte outside the device ends the fetch (R181). -/
theorem zpPointer_wrap_low_out (hw : s.params.zpPointerWrap = true) (hc : s.params.cap ≤ z.toNat) :
    zpPointer z s = .err (.busRange z.toNat 1 .read) { s with events := s.events ++ [byteReadFailed z.toNat] } := by
  rw [zpPointer, if_pos hw, busReadByte_out _ (by rwa [zext16_toNat]), zext16_toNat]
  rfl

/-- With the wrap, a high byte outside the device ends the fetch after the low byte was read (R181). -/
theorem zpPointer_wrap_high_out (hw : s.params.zpPointerWrap = true) (hc : z.toNat < s.params.cap)
    (hc' : s.params.cap ≤ (z + 1).toNat) :
    zpPointer z s = .err (.busRange (z + 1).toNat 1 .read) { s with
      events := s.events ++ [byteRead z.toNat (zpByte s z), byteReadFailed (z + 1).toNat] } := by
  rw [zpPointer, if_pos hw, busReadByte_in _ (by rwa [zext16_toNat]), Res.bind_ok,
    busReadByte_out _ (by rwa [zext16_toNat]), zext16_toNat, zext16_toNat, List.append_cons]
  rfl

/-- With the wrap, the pointer is the byte at `z` and above it the byte at `z + 1` within page 0 (R181). -/
theorem zpPointer_wrap_in (hw : s.params.zpPointerWrap = true) (hc : z.toNat < s.params.cap)
    (hc' : (z + 1).toNat < s.params.cap) :
    zpPointer z s = .ok (zpByte s (z + 1) ++ zpByte s z) { s with
      events := s.events ++ [byteRead z.toNat (zpByte s z), byteRead (z + 1).toNat (zpByte s (z + 1))] } := by
  rw [zpPointer, if_pos hw, busReadByte_in _ (by rwa [zext16_toNat]), Res.bind_ok,
    busReadByte_in _ (by rwa [zext16_toNat]), zext16_toNat, zext16_toNat, List.append_cons]
  rfl

/-- Without the wrap, a Word that is not wholly in the device is not read at all (R181). -/
theorem zpPointer_noWrap_out (hw : s.params.zpPointerWrap = false) (hc : s.params.cap ≤ z.toNat + 1) :
    zpPointer z s = .err (.busRange z.toNat 2 .read) { s with events := s.events ++ [wordReadFailed z.toNat] } := by
  rw [zpPointer, if_neg (Bool.eq_false_iff.1 hw), busReadWord_out _ (by rwa [zext16_toNat]), zext16_toNat]
  rfl

/-- Without the wrap, the pointer is the Word at `z`, whose high byte may lie in page 1 (R181). -/
theorem zpPointer_noWrap_in (hw : s.params.zpPointerWrap = false) (hc : z.toNat + 1 < s.params.cap) :
    zpPointer z s = .ok (Memory.read s.mem (z.toNat + 1) ++ zpByte s z) { s with
      events := s.events ++ [wordRead z.toNat (zpByte s z) (Memory.read s.mem (z.toNat + 1))] } := by
  rw [zpPointer, if_neg (Bool.eq_false_iff.1 hw), busReadWord_in _ (by rwa [zext16_toNat]), zext16_toNat]
  rfl

end

/-- The zero-page successor wraps at `0xFF` alone. -/
theorem toNat_add_one_of_ne_0xFF {z : Byte} (h : z ≠ 0xFF) : (z + 1).toNat = z.toNat + 1 := by bv_omega

/-- Settles O30: away from `0xFF` both values read their high byte at `z + 1`. -/
theorem zeroPagePointer : Obligations.ZeroPagePointer := by
  refine ⟨fun s z hw => ⟨fun hc => ?_, fun hc hc' => ?_, zpPointer_wrap_in hw⟩,
    fun s z hw => ⟨fun hc => ?_, zpPointer_noWrap_in hw⟩, fun s z hz hc => ?_⟩
  · exact ⟨_, eventsMatch_refl _, zpPointer_wrap_low_out hw hc⟩
  · exact ⟨_, eventsMatch_refl _, zpPointer_wrap_high_out hw hc hc'⟩
  · exact ⟨_, eventsMatch_refl _, zpPointer_noWrap_out hw hc⟩
  · have hsucc := toNat_add_one_of_ne_0xFF hz
    have hwrap := zpPointer_wrap_in (s := { s with params := ⟨s.params.cap, true⟩ }) rfl (Nat.lt_of_succ_lt hc)
      (hsucc ▸ hc)
    rw [zpByte, hsucc] at hwrap
    exact ⟨_, _, _, hwrap, zpPointer_noWrap_in rfl hc⟩

/-! ### The modes with a zero-page pointer -/

/-- Five cycles, and one more where the penalty is due (R182, R183). -/
theorem five_add_penalty (c : Bool) : 5 + penalty c = if c = true then 6 else 5 := by cases c <;> rfl

theorem wrapsZp_iff (b i : Byte) : wrapsZp b i = true ↔ b.toNat + i.toNat > 0xFF := decide_eq_true_iff

/-- Settles O31: `X` is read before the pointer, and the penalty is that of the index addition alone. -/
theorem Resolution.resolveIndexedIndirect : Obligations.ResolveIndexedIndirect := by
  refine ⟨rfl, fun s hf => oneOperand_of hf rfl rfl fun hv hc => ⟨fun hx => ?_, fun hx => ?_⟩⟩
  · refine failsWith_of_reached hv hf rfl ?_
    rw [Machine.resolveIndexedIndirect, fetchByte_eq_reached hv hc, Res.bind_ok, reached_x, readReg_invalid _ _ hx,
      Res.bind_err]
  · have hbody : Machine.resolveIndexedIndirect s =
        (zpPointer (operand0 s + s.x.value) (reached s 1 [byteRead s.pc.value.toNat (operand0 s)])).bind
          (fun ea => returnAddr .indX ea (wrapsZp (operand0 s) s.x.value)) := by
      rw [Machine.resolveIndexedIndirect, fetchByte_eq_reached hv hc, Res.bind_ok, reached_x, readReg_valid _ _ hx,
        Res.bind_ok, indexZp]
    refine pointerRead_of hf rfl (reached_of_valid 1 _ hv) hbody fun ea evs' hptr => exec_resolved hf rfl ?_
    rw [hbody, hptr, Res.bind_ok, returnAddr, baseCycles, five_add_penalty]
    simp only [wrapsZp_iff]
    rfl

/-- Settles O32: the pointer is fetched before `Y` is read, and the penalty is that of the operand byte alone. -/
theorem Resolution.resolveIndirectIndexed : Obligations.ResolveIndirectIndexed := by
  refine ⟨rfl, fun s hf => oneOperand_of hf rfl rfl fun hv hc => ?_⟩
  have hbody : Machine.resolveIndirectIndexed s =
      (zpPointer (operand0 s) (reached s 1 [byteRead s.pc.value.toNat (operand0 s)])).bind fun base s' =>
        (readReg .Y s'.y s').bind fun i => returnAddr .indY (indexAbs base i) (operand0 s == 0xFF) := by
    rw [Machine.resolveIndirectIndexed, fetchByte_eq_reached hv hc, Res.bind_ok]
  refine pointerRead_of hf rfl (reached_of_valid 1 _ hv) hbody fun base evs' hptr => ?_
  have hptr : zpPointer (operand0 s) (reached s 1 [byteRead s.pc.value.toNat (operand0 s)]) =
      .ok base (reached s 1 evs') := hptr
  refine ⟨fun hy => failsWith_of_reached hv hf rfl ?_,
    fun hy => ⟨indexAbs base s.y.value, indexAbs_toNat _ _, exec_resolved hf rfl ?_⟩⟩
  · rw [hbody, hptr, Res.bind_ok, reached_y, readReg_invalid _ _ hy, Res.bind_err]
  · rw [hbody, hptr, Res.bind_ok, reached_y, readReg_valid _ _ hy, Res.bind_ok, returnAddr, baseCycles,
      five_add_penalty]
    simp only [beq_iff_eq]
    rfl

end Sys2Proof.Machine
end

section
/-! The pass-through writes (R190 to R193). -/

namespace Sys2Proof.Machine

/-- What the three pass-through commands share: one write of the block, and `Done` once it is made. -/
def runPassThrough (op : BusOp) (a : Word) (bytes : List Byte) (s : State) : Out :=
  runCommand s fun s => (busWrite .cpu op a bytes s).bind fun _ s => .ok .done s

section
variable {s t : State} {op : BusOp} {a : Word} {bytes : List Byte}

/-! ### The commands as one write -/

theorem exec_writeByte_eq {d : Word} (hd : d.toNat < 256) :
    exec (.writeByte a d) s = runPassThrough .writeByte a [lowByte d] s := by
  rw [exec, execWriteByte, withByteData, if_pos (show dataIsByte d = true from decide_eq_true hd)]
  rfl

theorem exec_writeWord_eq (d : Word) :
    exec (.writeWord a d) s = runPassThrough .writeWord a [lowByte d, highByte d] s := rfl

theorem exec_writeBytes_eq (seq : List Byte) : exec (.writeBytes a seq) s = runPassThrough .writeBytes a seq s := rfl

/-! ### What the write does -/

/-- A pass-through write inside the device stores all its bytes (R190 to R192). -/
theorem runPassThrough_in (hf : s.fault = none) (h : bytes = [] ∨ a.toNat + bytes.length ≤ s.params.cap) :
    runPassThrough op a bytes s = .next (respond .done (recordEvent .cpu op a.toNat bytes.length (some bytes)
      { s with mem := Memory.writeSeq s.mem a.toNat bytes })) := by
  rw [runPassThrough]
  exact runCommand_returns hf (by rw [busWrite_in _ _ h, Res.bind_ok])

/-- A pass-through write that reaches outside the device raises `BusRange` and stores nothing (R190 to R192). -/
theorem runPassThrough_out (hf : s.fault = none) (hne : bytes ≠ []) (h : s.params.cap < a.toNat + bytes.length) :
    runPassThrough op a bytes s = .next (takeError (.busRange a.toNat bytes.length .write)
      (recordEvent .cpu op a.toNat bytes.length none s)) := by
  rw [runPassThrough]
  exact runCommand_raises hf (by rw [busWrite_out _ _ hne h, Res.bind_err])

/-- A pass-through write leaves every register, and issues the one write, whether or not it fails (R193). -/
theorem runPassThrough_effect (h : runPassThrough op a bytes s = .next t) :
    t = { s with mem := t.mem, fault := t.fault, results := t.results, events := t.events } ∧
      ∃ v, t.events = s.events ++ [⟨.cpu, op, a.toNat, bytes.length, v⟩] := by
  obtain ⟨hf, -⟩ := runCommand_next h
  by_cases hin : bytes = [] ∨ a.toNat + bytes.length ≤ s.params.cap
  · cases h.symm.trans (runPassThrough_in hf hin)
    exact ⟨rfl, _, rfl⟩
  · obtain ⟨hne, hc⟩ := not_or.1 hin
    cases h.symm.trans (runPassThrough_out hf hne (Nat.not_le.1 hc))
    exact ⟨rfl, _, rfl⟩

end

/-! ### The statements -/

/-- Settles O38: the operand is a byte, so the command is one write of its low byte. -/
theorem writeByteCommand : Obligations.WriteByteCommand := by
  intro s addr d hf hm hd
  refine ⟨decode_addrData8 rfl (decide_eq_true hd), fun h => failsCleanly_of ?_,
    fun h => ⟨_, stored_writeSeq hm _ _, ?_⟩⟩
  · exact (exec_writeByte_eq hd).trans (runPassThrough_out hf (List.cons_ne_nil _ _) (Nat.lt_succ_of_le h))
  · exact (exec_writeByte_eq hd).trans (runPassThrough_in hf (.inr h))

/-- Settles O39: the command is one write of the low byte and the high byte, checked as a whole. -/
theorem writeWordCommand : Obligations.WriteWordCommand := by
  intro s addr d hf hm
  refine ⟨rfl, fun h => failsCleanly_of ?_, fun h => ⟨_, stored_writeSeq hm _ _, ?_⟩⟩
  · exact (exec_writeWord_eq d).trans (runPassThrough_out hf (List.cons_ne_nil _ _) (Nat.lt_succ_of_le h))
  · exact (exec_writeWord_eq d).trans (runPassThrough_in hf (.inr h))

/-- Settles O40: the whole sequence is checked before a byte is stored, and an empty one has nothing to check. -/
theorem writeBytesCommand : Obligations.WriteBytesCommand := by
  intro s addr seq hf hm
  refine ⟨rfl, fun hne h => failsCleanly_of ?_, fun h => ⟨_, stored_writeSeq hm _ _, fun hnil => ?_, ?_⟩⟩
  · have hpos := List.length_pos_iff.2 hne
    exact (exec_writeBytes_eq seq).trans (runPassThrough_out hf hne (by omega))
  · rw [hnil, Memory.writeSeq]
  · have hin : seq = [] ∨ addr.toNat + seq.length ≤ s.params.cap := h.imp_right (by omega)
    exact (exec_writeBytes_eq seq).trans (runPassThrough_in hf hin)

/-- Settles O41: each command is one write of the block. -/
theorem passThroughIssuesOneOperation : Obligations.PassThroughIssuesOneOperation := fun _ _ _ d seq =>
  ⟨fun hd h => runPassThrough_effect ((exec_writeByte_eq hd).symm.trans h),
    fun h => runPassThrough_effect ((exec_writeWord_eq d).symm.trans h),
    fun h => runPassThrough_effect ((exec_writeBytes_eq seq).symm.trans h)⟩

end Sys2Proof.Machine
end

section
/-! The error statements: a block with `FAULT` set accepts no command (R209), and what a command that raises an error
leaves (R206 to R208). -/

namespace Sys2Proof.Machine

/-! ### A faulted block -/

section
variable {s : State} {e : ErrorRecord} (hf : s.fault = some e)
include hf

theorem runCommand_faulted (body : State → Res Result) : runCommand s body = .fault (.blockFaulted e) :=
  acceptCommand_faulted hf _

theorem runResolve_faulted (body : State → Res Result) : runResolve s body = .fault (.blockFaulted e) :=
  acceptCommand_faulted hf _

theorem withByteData_faulted (d : Word) (body : Byte → State → Res Result) :
    withByteData d s (fun b => runCommand s (body b)) = .fault (.blockFaulted e) := by
  unfold withByteData
  split
  · exact runCommand_faulted hf _
  · exact acceptCommand_faulted hf _

/-- R209: every command begins by being accepted, a refused one too, and there `FAULT` stops it. -/
theorem exec_faulted {i : Instr} (hi : isDeviceOp i = false) : exec i s = .fault (.blockFaulted e) := by
  cases i with
  | resolveAcc | resolveImpl | resolveImm | resolveAbs | resolveZp | resolveAbsX | resolveAbsY | resolveZpX | resolveZpY
  | resolveInd | resolveIndX | resolveIndY | resolveRel =>
    rw [exec]
    exact runResolve_faulted hf _
  | setSp d | setA d | setX d | setY d | setP d | setImplicit d | writeByte _ d =>
    rw [exec]
    exact withByteData_faulted hf d _
  | busReadByte | busReadWord | busWriteByte | busWriteWord | busWriteBytes | memClear | memIndexedRead
  | memIndexedWrite => cases hi
  | _ =>
    rw [exec]
    exact runCommand_faulted hf _

theorem step_faulted {w : Byte} {ops : CommandOperands} {rest : List Request}
    (hs : s.inputs = .command w ops :: rest) : step s = .fault (.blockFaulted e) := by
  cases hd : decode (.command w ops) with
  | ok i =>
    rw [step_of_decode hs hd]
    exact exec_faulted (s := takeRequest (.command w ops) rest s) hf (decode_command_isCommand hd)
  | error err =>
    simp only [step, hs, hd, refuseRequest, refuseCommand]
    exact acceptCommand_faulted (s := takeRequest (.command w ops) rest s) hf _

theorem exec_keepsFault {i : Instr} {t : State} (h : exec i s = .next t) : t.fault = some e := by
  obtain ⟨he, -⟩ | ⟨hn, -⟩ | ⟨hn, -⟩ := exec_results h
  · exact he.trans hf
  · exact nomatch hf.symm.trans hn
  · exact nomatch hf.symm.trans hn

theorem step_keepsFault {t : State} (h : step s = .next t) : t.fault = some e := by
  obtain ⟨-, rfl⟩ | ⟨r, rest, -, ⟨i, -, hi⟩ | ⟨err, -, rfl⟩⟩ := step_cases h
  · exact hf
  · exact exec_keepsFault (s := takeRequest r rest s) hf hi
  · exact hf

end

/-- Settles O7: a command stops where it would be accepted, and no instruction writes `FAULT` once it is set. -/
theorem faultedBlockTakesNoStep : Obligations.FaultedBlockTakesNoStep :=
  ⟨fun _ _ _ _ _ hf hs => step_faulted hf hs, fun _ _ _ hf hi => exec_faulted hf hi,
    fun _ _ _ h hf => step_keepsFault hf h, fun _ _ hf ⟨_, hn, _⟩ => nomatch hf.symm.trans hn⟩

/-! ### How far `PC` had come where a resolution raises -/

/-- The number of operations among the events that moved their bytes (R74). -/
def completed (evs : List Event) : Nat := (evs.filter fun ev => ev.value.isSome).length

theorem completed_append (evs evs' : List Event) : completed (evs ++ evs') = completed evs + completed evs' := by
  simp [completed]

theorem pcAdvance_le {s s' : State} {n : Nat} (h : s'.pc.value = s.pc.value + BitVec.ofNat 16 n) :
    pcAdvance s s' ≤ n := by
  rw [pcAdvance, h, BitVec.add_comm, BitVec.add_sub_cancel, BitVec.toNat_ofNat]
  exact Nat.mod_le _ _

/-- From `s` to `s'` the increments of `PC` are no more than the operations that moved their bytes. -/
def AdvanceRead (s s' : State) : Prop := ∃ evs, s'.events = s.events ++ evs ∧ pcAdvance s s' ≤ completed evs

theorem Reads.advanceRead {s s' : State} (h : Reads s s' 0) : AdvanceRead s s' := by
  obtain ⟨evs, he, -⟩ := h.events
  exact ⟨evs, he, Nat.le_trans (pcAdvance_le (by rw [h.pc])) (Nat.zero_le _)⟩

theorem pcAdvance_trans (s s' s'' : State) : pcAdvance s s'' ≤ pcAdvance s s' + pcAdvance s' s'' := by
  simp only [pcAdvance]
  bv_omega

theorem AdvanceRead.trans {s s' s'' : State} (h : AdvanceRead s s') (h' : AdvanceRead s' s'') :
    AdvanceRead s s'' := by
  obtain ⟨evs, he, hle⟩ := h
  obtain ⟨evs', he', hle'⟩ := h'
  refine ⟨evs ++ evs', by rw [he', he, List.append_assoc], ?_⟩
  rw [completed_append]
  exact Nat.le_trans (pcAdvance_trans s s' s'') (Nat.add_le_add hle hle')

/-- The state a part of a command ends in, whether it returns or raises. -/
def Res.final {α : Type} : Res α → State
  | .ok _ s => s
  | .err _ s => s

theorem Part.advanceRead {α : Type} {s : State} {r : Res α} (h : Part s r 0) : AdvanceRead s r.final := by
  cases hr : r with
  | ok v s' => exact (h.ok v s' hr).1.advanceRead
  | err e s' =>
    obtain ⟨⟨k, hk, hreads⟩, -⟩ := h.err e s' hr
    exact (Nat.le_zero.1 hk ▸ hreads).advanceRead

theorem AdvanceRead.bind {α β : Type} {s : State} {r : Res α} {k : α → State → Res β} (h : AdvanceRead s r.final)
    (hk : ∀ v s', AdvanceRead s' (k v s').final) : AdvanceRead s (r.bind k).final := by
  cases r with
  | ok v s' => exact h.trans (hk v s')
  | err e s' => exact h

/-- `FetchByte` advances `PC` only past a byte it has read (R152). -/
theorem AdvanceRead.fetchByte (s : State) : AdvanceRead s (fetchByte s).final := by
  cases hv : s.pc.valid with
  | false => rw [fetchByte_invalid hv]; exact (Reads.refl s).advanceRead
  | true =>
    rcases Nat.lt_or_ge s.pc.value.toNat s.params.cap with hc | hc
    · rw [fetchByte_in hv hc]; exact ⟨_, rfl, pcAdvance_le rfl⟩
    · rw [fetchByte_out hv hc]; exact (Reads.event _ _ _ _ s (.inl rfl)).advanceRead

theorem AdvanceRead.fetchWord (s : State) : AdvanceRead s (fetchWord s).final :=
  (AdvanceRead.fetchByte s).bind fun _ _ => (AdvanceRead.fetchByte _).bind fun _ s'' => (Reads.refl s'').advanceRead

/-- A resolver that reads operand bytes advances `PC` only past those it has read (R152). -/
theorem modeBody_advanceRead {m : Mode} (hm : readsOperand m = true) (s : State) :
    AdvanceRead s (modeBody m s).final := by
  by_cases h2 : pcBytes m = 2
  · obtain ⟨rest, hb, hp⟩ := modeBody_fetchWord h2 s
    rw [hb]
    exact (AdvanceRead.fetchWord s).bind fun w s' => (hp w s').advanceRead
  · cases m with
    | acc | impl | imm => cases hm
    | abs | absX | absY | ind => exact absurd rfl h2
    | zp | rel => exact (AdvanceRead.fetchByte s).bind fun _ s' => (Reads.refl s').advanceRead
    | zpX | zpY =>
      exact (AdvanceRead.fetchByte s).bind fun _ _ =>
        ((Part.readReg _ _ _).bind (m := 0) fun _ _ _ => .pure _ _).advanceRead
    | indX =>
      exact (AdvanceRead.fetchByte s).bind fun _ _ =>
        ((Part.readReg _ _ _).bind (m := 0) fun _ _ _ =>
          (Part.zpPointer _ _).bind (m := 0) fun _ _ _ => .pure _ _).advanceRead
    | indY =>
      exact (AdvanceRead.fetchByte s).bind fun _ _ =>
        ((Part.zpPointer _ _).bind (m := 0) fun _ _ _ =>
          (Part.readReg _ _ _).bind (m := 0) fun _ _ _ => .pure _ _).advanceRead

/-- Where a resolution raises, its increments of `PC` are no more than the operations that moved their bytes: IMM, which
reads none, raises before its increment (R152, R155). -/
theorem modeBody_raises_advanceRead {m : Mode} {s s' : State} {e : ErrorRecord} (h : modeBody m s = .err e s') :
    AdvanceRead s s' := by
  cases hm : readsOperand m with
  | true => simpa [h, Res.final] using modeBody_advanceRead hm s
  | false =>
    cases m with
    | acc | impl => cases h
    | imm =>
      cases hv : s.pc.valid with
      | false =>
        rw [modeBody, resolveImmediate, readReg_invalid _ _ hv] at h
        cases h
        exact (Reads.refl s).advanceRead
      | true => rw [modeBody, resolveImmediate, readReg_valid _ _ hv] at h; cases h
    | _ => cases hm

/-! ### What a command that raises leaves -/

/-- A command that sets `FAULT` is a resolution whose resolver has raised the error, or raises it where at most the
history has changed (R207, R208). -/
theorem exec_sets_fault {i : Instr} {s t : State} {e : ErrorRecord} (h : exec i s = .next t) (hs : s.fault = none)
    (ht : t.fault = some e) :
    (∃ m s', i = modeInstr m ∧ modeBody m s = .err e s' ∧ t = takeError e (forgetPc s s')) ∨
    (∃ evs, t = takeError e { s with events := evs }) := by
  cases exec_effect h with
  | failedResolution m s' k e' hi _ hb => cases ht; exact .inl ⟨m, s', hi, hb, rfl⟩
  | failed | failedStore => cases ht; exact .inr ⟨_, rfl⟩
  | resolution _ _ _ _ _ _ _ _ hr => exact nomatch (hr.fault.trans hs).symm.trans ht
  | _ => exact nomatch hs.symm.trans ht

/-- Where a failed resolution leaves `PC`: at the entry value, or past operand bytes its resolver has read (R208). -/
theorem forgetPc_of_raise {m : Mode} {s s' : State} {e : ErrorRecord} (h : modeBody m s = .err e s') :
    ∃ n evs, s'.events = s.events ++ evs ∧ n ≤ pcBytes m ∧ n ≤ completed evs ∧
      (forgetPc s s').pc = ⟨s.pc.value + BitVec.ofNat 16 n, s.pc.valid⟩ := by
  obtain ⟨ha, hi⟩ := modeBody_raises h
  obtain ⟨⟨k, hk, hr⟩, -⟩ := (modeBody_part ha hi s).err _ _ h
  obtain ⟨evs, he, hread⟩ := modeBody_raises_advanceRead h
  obtain ⟨n, hn, hpc⟩ := forgetPc_value s s'
  have hadv : pcAdvance s s' ≤ k := pcAdvance_le (by rw [hr.pc])
  refine ⟨n, evs, he, by omega, by omega, ?_⟩
  have hv : s'.pc.valid = s.pc.valid := by rw [hr.pc]
  rw [← hpc, ← hv]
  rfl

/-- A command that has a next state was accepted (R209). -/
theorem command_accepted {i : Instr} {s t : State} (hi : isDeviceOp i = false) (h : exec i s = .next t) :
    s.fault = none := by
  cases hf : s.fault with
  | none => rfl
  | some e => exact nomatch (exec_faulted hf hi).symm.trans h

/-- Settles O53: a resolution that raises leaves what its resolver left, any other command the entry state, and no error is
returned without `FAULT` set to it. -/
theorem errorLeavesStateButPc : Obligations.ErrorLeavesStateButPc := by
  refine ⟨fun i s t e hi h ht => ?_, fun i s t e h hr => ?_⟩
  · have hs := command_accepted hi h
    obtain ⟨m, s', hm, hb, rfl⟩ | ⟨evs, rfl⟩ := exec_sets_fault h hs ht
    · have hrest := ResolverFrame.of_err hb
      obtain ⟨n, evs, he, hn, hc, hpc⟩ := forgetPc_of_raise hb
      have hresults : (takeError e (forgetPc s s')).results = s.results ++ [.error e] := by
        rw [takeError_results, forgetPc_results, hrest.results]
      refine ⟨hs, hresults, ?_, .inr ⟨m, n, evs, hm, he, hn, hc, hpc⟩⟩
      obtain ⟨ha, hl⟩ := modeBody_raises hb
      rw [hrest.rest, hrest.imp ha hl]
      rfl
    · exact ⟨hs, rfl, rfl, .inl rfl⟩
  · obtain ⟨-, he⟩ | ⟨-, -, r, hne, he⟩ | ⟨-, e', hf, he⟩ := exec_results h
    · simp [he] at hr
    · have hre : r = .error e := by simpa using he.symm.trans hr
      rw [hre] at hne
      cases hne
    · have hre : e' = e := by simpa using he.symm.trans hr
      rw [hf, hre]

end Sys2Proof.Machine
end

section
/-! The construction and reset statements (R56, R220, R221), and the step with no transaction pending (R226). -/

namespace Sys2Proof.Machine

/-! ### The built machine -/

/-- The machine that construction builds: the reset state with `PC`, `SP` and `P` not yet written, and with the parameters
and the contents given (R220). -/
def builtMachine (params : Params) (mem0 : List Byte) : State :=
  { State.reset with
    pc := .unwritten 16
    sp := .unwritten 8
    p := .unwritten 8
    params := params
    mem := Memory.writeSeq [] 0 mem0 }

section
variable {cap : Int} {mem0 : List Byte} {z : Bool}

theorem construct_of_legal (h1 : 1 ≤ cap) (h2 : cap ≤ 65536) (hl : mem0.length = cap.toNat) :
    construct cap mem0 z = .ok (builtMachine ⟨cap.toNat, z⟩ mem0) := by
  rw [construct, if_neg (by omega), if_neg fun hne => hne hl]
  rfl

/-- Construction builds a machine only from a legal capacity and contents of its length (R56, R57, R204). -/
theorem construct_eq_ok {s : State} (h : construct cap mem0 z = .ok s) :
    1 ≤ cap ∧ cap ≤ 65536 ∧ mem0.length = cap.toNat ∧ s = builtMachine ⟨cap.toNat, z⟩ mem0 := by
  by_cases hc : cap < 1 ∨ 65536 < cap
  · rw [construct, if_pos hc] at h
    cases h
  · have h1 : 1 ≤ cap := by omega
    have h2 : cap ≤ 65536 := by omega
    by_cases hl : mem0.length = cap.toNat
    · rw [construct_of_legal h1 h2 hl] at h
      cases h
      exact ⟨h1, h2, hl, rfl⟩
    · rw [construct, if_neg hc, if_pos hl] at h
      cases h

end

theorem builtMachine_invariant {params : Params} {mem0 : List Byte} (h1 : 1 ≤ params.cap) (h2 : params.cap ≤ 65536)
    (hl : mem0.length = params.cap) : MachineInv (builtMachine params mem0) where
  capacity := ⟨h1, h2⟩
  canonical := Memory.wf_writeSeq (m := []) rfl 0 mem0
  inDevice := fun c hc => by
    rcases Memory.mem_writeSeq (m := []) hc with ⟨-, hlt⟩ | hc
    · rwa [hl, Nat.zero_add] at hlt
    · exact nomatch hc
  resultsFit := fun _ hr => nomatch hr

/-- A built machine holds `MEM0` (R56). -/
theorem builtMachine_holds (params : Params) {mem0 : List Byte} {n : Nat} {b : Byte} (hb : mem0[n]? = some b) :
    Memory.read (builtMachine params mem0).mem n = b := by
  have h := Memory.read_writeSeq_same (m := []) (a := 0) rfl hb
  rwa [Nat.zero_add] at h

/-- Settles O10: construction is all or nothing, and what it builds is `builtMachine`. -/
theorem constructionMeetsInvariant : Obligations.ConstructionMeetsInvariant := by
  refine ⟨fun cap mem0 z s h => ?_, fun cap mem0 z h1 h2 hl => ⟨_, construct_of_legal h1 h2 hl⟩⟩
  obtain ⟨h1, h2, hl, rfl⟩ := construct_eq_ok h
  have hlow : 1 ≤ cap.toNat := by omega
  have hhigh : cap.toNat ≤ 65536 := by omega
  exact ⟨builtMachine_invariant hlow hhigh hl, rfl, fun _ _ hb => builtMachine_holds _ hb,
    rfl, rfl, rfl, rfl, rfl, rfl, rfl, rfl⟩

/-! ### RESET -/

/-- Settles O12: RESET raises no error, and is accepted only while `FAULT` is none, as every command is. -/
theorem resetCommand : Obligations.ResetCommand :=
  ⟨rfl, fun _ hf => exec_reset hf, fun _ _ hf => exec_faulted hf rfl⟩

/-- Bytes that read as an unlisted address does leave an empty store empty. -/
theorem Memory.writeSeq_nil_unlisted (a n : Nat) :
    Memory.writeSeq [] a (List.replicate n Memory.unlisted) = [] := by
  induction n generalizing a with
  | zero => rfl
  | succ n ih =>
    rw [List.replicate_succ, Memory.writeSeq, Memory.write, if_pos rfl]
    exact ih (a + 1)

theorem builtMachine_default :
    builtMachine .default (List.replicate 65536 0x00) =
      { State.reset with pc := .unwritten 16, sp := .unwritten 8, p := .unwritten 8 } := by
  rw [builtMachine, show (0x00 : Byte) = Memory.unlisted from rfl, Memory.writeSeq_nil_unlisted]
  rfl

/-- Settles O13: RESET writes the three registers in which a just-built default machine differs from the reset state. -/
theorem resetStateIsBuiltThenReset : Obligations.ResetStateIsBuiltThenReset := by
  refine ⟨_, construct_of_legal (by decide) (by decide) List.length_replicate, ?_⟩
  have hdefault : (⟨Int.toNat 65536, true⟩ : Params) = .default := rfl
  rw [hdefault, builtMachine_default, exec_reset rfl]
  rfl

/-! ### The idle step -/

theorem step_of_idle {s : State} (h : s.inputs = []) : step s = .next s := by
  simp only [step, h]

/-- Settles O6: with no transaction in `inputs` the step performs no instruction and refuses none. -/
theorem stepIdleWithoutTransaction : Obligations.StepIdleWithoutTransaction := fun _ h => step_of_idle h

end Sys2Proof.Machine
end
